-- ==== Sys2Proof/Word.lean ====
section
/-! DEFINITION. The word types of CORE (00_scope.md R8, R10). -/

namespace Sys2Proof

/-- One byte of the INPUT stream, or one data byte (20_memory.md R51, R58). -/
abbrev Byte := BitVec 8

/-- A 4-bit field of the command byte: the opcode or the payload length (30_encoding.md R71). -/
abbrev Nibble := BitVec 4

/-- One bit: a store cell, WARMBOOT, NOSLEEP or TRL_NONZERO; `true` is 1. -/
abbrev Bit := Bool

/-- A register that holds a value or the spec's own `⊥`, "unset": the value of a register that nothing has
written since reset, which is not a number (00_scope.md R10). `none` is `⊥`. -/
abbrev OrUnset (α : Type) := Option α

end Sys2Proof
end

