-- ==== Sys2Proof/Machine/Flags.lean ====
section
/-! DEFINITION. The flag computations of CORE (10_state.md R35): the two feature flags of a FLAGS selector and the
non-zero flag of a trailer. There are no condition codes. -/

namespace Sys2Proof.Machine

/-- WARMBOOT and NOSLEEP for a legal FLAGS selector, `none` for any other (42_opcodes.md R130). -/
def featureFlags (p : Nat) : Option (Bit × Bit) :=
  if p = 0 then some (false, false)
  else if p = 1 then some (false, true)
  else if p = 32 then some (true, false)
  else if p = 33 then some (true, true)
  else none

/-- TRL_NONZERO after trailer byte `b` (43_subcommands.md R153). -/
def trailerFlag (nz : Bit) (b : Byte) : Bit := nz || b != 0#8

end Sys2Proof.Machine
end

