-- ==== Sys2Proof/Config.lean ====
section
/-! DEFINITION. The fixed parameters of CORE (00_scope.md R7). The one open parameter, STORE_LIMIT (R9), is carried
in State so that a claim holds for every value of it (log 7). -/

namespace Sys2Proof.Config

/-- MAGIC, the preamble as one big-endian 32-bit value (00_scope.md R7, 20_memory.md R55(b)). -/
abbrev magic : BitVec 32 := 0x7EAA997E#32

/-- The preamble in stream order (00_scope.md R7). -/
abbrev preambleBytes : List Byte := [0x7E#8, 0xAA#8, 0x99#8, 0x7E#8]

/-- The longest payload in bytes, MAX_PAYLOAD_BYTES (00_scope.md R7). -/
abbrev maxPayloadBytes : Nat := 15

/-- The number of trailer bytes of a block, TRAILER_BYTES (00_scope.md R7). -/
abbrev trailerBytes : Nat := 2

/-- CRC_RESET_VALUE, what sub-command 0x05 writes (00_scope.md R7, 43_subcommands.md R162). -/
abbrev crcResetValue : BitVec 16 := 0xFFFF#16

end Sys2Proof.Config
end

