-- ==== Sys2Proof/Syntax.lean ====
section
/-! DEFINITION. The commands of CORE, one constructor per row of the opcode table (30_encoding.md R74, R75, R83).
`len` is L, the number of payload bytes the command byte announces; `p` is the payload P, a natural (R72, R8). The
payload of CRAM, BRAM, CRCRST and WAKEUP is the value that selects them. -/

namespace Sys2Proof

inductive Instr where
  /-- The preamble 7E AA 99 7E, in SYNC only (40_synchronizer.md R90). -/
  | preamble
  /-- Opcode 0, payload value 1 (43_subcommands.md R150). -/
  | cram (len : Nibble)
  /-- Opcode 0, payload value 3 (43_subcommands.md R151). -/
  | bram (len : Nibble)
  /-- Opcode 0, payload value 5 (43_subcommands.md R162). -/
  | crcrst (len : Nibble)
  /-- Opcode 0, payload value 6 (43_subcommands.md R163). -/
  | wakeup (len : Nibble)
  /-- Opcode 0, any other payload value (43_subcommands.md R164). -/
  | subUnknown (len : Nibble) (p : Nat)
  /-- Opcode 1 (42_opcodes.md R122). -/
  | bank (len : Nibble) (p : Nat)
  /-- Opcode 2 (42_opcodes.md R123). -/
  | crcchk (len : Nibble) (p : Nat)
  /-- Opcode 3 (42_opcodes.md R124). -/
  | rsv3 (len : Nibble) (p : Nat)
  /-- Opcode 4 (42_opcodes.md R125). -/
  | rsv4 (len : Nibble) (p : Nat)
  /-- Opcode 5 (42_opcodes.md R126). -/
  | freq (len : Nibble) (p : Nat)
  /-- Opcode 6 (42_opcodes.md R127). -/
  | setw (len : Nibble) (p : Nat)
  /-- Opcode 7 (42_opcodes.md R128). -/
  | seth (len : Nibble) (p : Nat)
  /-- Opcode 8 (42_opcodes.md R129). -/
  | setoff (len : Nibble) (p : Nat)
  /-- Opcode 9 (42_opcodes.md R130). -/
  | flags (len : Nibble) (p : Nat)
  /-- Opcode 10 (42_opcodes.md R131). -/
  | op10 (len : Nibble) (p : Nat)
  /-- Opcode 11 (42_opcodes.md R132). -/
  | op11 (len : Nibble) (p : Nat)
  /-- Opcode 12 (42_opcodes.md R133). -/
  | op12 (len : Nibble) (p : Nat)
  /-- Opcode 13 (42_opcodes.md R134). -/
  | op13 (len : Nibble) (p : Nat)
  /-- Opcode 14 (42_opcodes.md R135). -/
  | op14 (len : Nibble) (p : Nat)
  /-- Opcode 15 (42_opcodes.md R136). -/
  | op15 (len : Nibble) (p : Nat)
  deriving DecidableEq, Repr

end Sys2Proof
end

