-- ==== Sys2Proof/WellFormed.lean ====
section
/-! DEFINITION. Which terms of Instr stand for commands that some byte sequence encodes: the payload fits in the
announced length (30_encoding.md R72), and SUB_UNKNOWN's payload selects no named sub-command (R75). -/

namespace Sys2Proof

/-- `p` can be written in `len` payload bytes (30_encoding.md R72, R82). -/
def fitsIn (len : Nibble) (p : Nat) : Bool := decide (p < 256 ^ len.toNat)

/-- `p` is one of the four payload values with a named sub-command (30_encoding.md R75). -/
def isNamedSub (p : Nat) : Bool := p == 1 || p == 3 || p == 5 || p == 6

/-- Every check on a command, one line per constructor. -/
def Instr.wellFormed : Instr → Bool
  | .preamble => true
  | .cram len => fitsIn len 1
  | .bram len => fitsIn len 3
  | .crcrst len => fitsIn len 5
  | .wakeup len => fitsIn len 6
  | .subUnknown len p => fitsIn len p && !isNamedSub p
  | .bank len p => fitsIn len p
  | .crcchk len p => fitsIn len p
  | .rsv3 len p => fitsIn len p
  | .rsv4 len p => fitsIn len p
  | .freq len p => fitsIn len p
  | .setw len p => fitsIn len p
  | .seth len p => fitsIn len p
  | .setoff len p => fitsIn len p
  | .flags len p => fitsIn len p
  | .op10 len p => fitsIn len p
  | .op11 len p => fitsIn len p
  | .op12 len p => fitsIn len p
  | .op13 len p => fitsIn len p
  | .op14 len p => fitsIn len p
  | .op15 len p => fitsIn len p

/-- A command that some byte sequence encodes. -/
abbrev Instr.WellFormed (i : Instr) : Prop := i.wellFormed = true

end Sys2Proof
end

