-- ==== Sys2Proof/Decode.lean ====
section
/-! DEFINITION. The encoding of 30_encoding.md: the command byte and payload (R71, R72), the opcode and sub-command
maps (R74, R75), a decoder that is total on any bytes and rejects by name, the encoder, the assembler of R81 to R83,
and the host's view of a word of spec/opcode_table.json. -/

namespace Sys2Proof

/-! ### Fields and byte order -/

/-- The OP field, bits 7:4 of a command byte (30_encoding.md R71). -/
def opField (b : Byte) : Nibble := b.extractLsb' 4 4

/-- The L field, bits 3:0 of a command byte (30_encoding.md R71). -/
def lenField (b : Byte) : Nibble := b.extractLsb' 0 4

/-- The command byte with opcode `op` and payload length `len` (30_encoding.md R71). -/
def cmdByte (op len : Nibble) : Byte := op ++ len

/-- One byte shifted in at the low end of a big-endian value (41_framing.md R102). -/
def shiftIn (p : Nat) (b : Byte) : Nat := p * 256 + b.toNat

/-- Bytes shifted in one after another on top of `p`. -/
def shiftInAll (p : Nat) : List Byte → Nat
  | [] => p
  | b :: bs => shiftInAll (shiftIn p b) bs

/-- The big-endian value of a byte sequence, 0 for the empty one (30_encoding.md R72). -/
def beValue (bs : List Byte) : Nat := shiftInAll 0 bs

/-- The `n` low bytes of `p`, most significant first (30_encoding.md R72). -/
def beBytes : Nat → Nat → List Byte
  | 0, _ => []
  | n + 1, p => BitVec.ofNat 8 (p / 256 ^ n) :: beBytes n p

/-- The `n` low bytes of `w`, least significant first: how spec/opcode_table.json numbers the bits of a row whose
word is a byte. -/
def leBytes : Nat → Nat → List Byte
  | 0, _ => []
  | n + 1, w => BitVec.ofNat 8 w :: leBytes n (w / 256)

/-! ### Decoding -/

/-- What the synchronizer or the command decoder makes of the bytes at the stream position: the preamble is sought
in SYNC only, commands are read in RUN only (30_encoding.md R80). -/
inductive Context where
  | sync
  | run
  deriving DecidableEq, Repr

/-- Why bytes are no complete instruction. -/
inductive DecodeError where
  /-- RUN: no command byte (41_framing.md R104). -/
  | noCommandByte
  /-- RUN: fewer than L payload bytes (41_framing.md R105). -/
  | payloadCutShort
  /-- SYNC: fewer than four bytes (40_synchronizer.md R91). -/
  | preambleCutShort
  /-- SYNC: the first four bytes are not the preamble (40_synchronizer.md R90). -/
  | notThePreamble
  deriving DecidableEq, Repr

/-- The opcode-0 map: the whole payload value selects (30_encoding.md R75, 42_opcodes.md R121). -/
def ofSub (len : Nibble) (p : Nat) : Instr :=
  if p = 1 then .cram len
  else if p = 3 then .bram len
  else if p = 5 then .crcrst len
  else if p = 6 then .wakeup len
  else .subUnknown len p

/-- The opcode map (30_encoding.md R74, 41_framing.md R103): the command with opcode `op`, length `len`, payload `p`. -/
def ofCommand (op len : Nibble) (p : Nat) : Instr :=
  match op.toNat with
  | 0 => ofSub len p
  | 1 => .bank len p
  | 2 => .crcchk len p
  | 3 => .rsv3 len p
  | 4 => .rsv4 len p
  | 5 => .freq len p
  | 6 => .setw len p
  | 7 => .seth len p
  | 8 => .setoff len p
  | 9 => .flags len p
  | 10 => .op10 len p
  | 11 => .op11 len p
  | 12 => .op12 len p
  | 13 => .op13 len p
  | 14 => .op14 len p
  | _ => .op15 len p

/-- One command read from the front of `bs`, with the bytes after it (30_encoding.md R71 to R73). A block command's
data and trailer are not part of it: their number depends on earlier commands (R73). -/
def decodeCommand (bs : List Byte) : Except DecodeError (Instr × List Byte) :=
  match bs with
  | [] => .error .noCommandByte
  | b :: rest =>
    if rest.length < (lenField b).toNat then .error .payloadCutShort
    else .ok (ofCommand (opField b) (lenField b) (beValue (rest.take (lenField b).toNat)),
      rest.drop (lenField b).toNat)

/-- The preamble at the front of `bs` (30_encoding.md R70, 40_synchronizer.md R90). -/
def decodePreamble (bs : List Byte) : Except DecodeError (Instr × List Byte) :=
  if bs.length < 4 then .error .preambleCutShort
  else if bs.take 4 = Config.preambleBytes then .ok (.preamble, bs.drop 4)
  else .error .notThePreamble

/-- The decoder, total on any bytes. -/
def decode (c : Context) (bs : List Byte) : Except DecodeError (Instr × List Byte) :=
  match c with
  | .sync => decodePreamble bs
  | .run => decodeCommand bs

/-! ### Encoding -/

/-- Where an instruction is decoded: the preamble in SYNC, every other in RUN (30_encoding.md R80). -/
def Instr.context : Instr → Context
  | .preamble => .sync
  | _ => .run

/-- The OP field of a command (30_encoding.md R74); the preamble, which is no command (R80), is given 0. -/
def Instr.opcode : Instr → Nibble
  | .preamble => 0
  | .cram _ => 0
  | .bram _ => 0
  | .crcrst _ => 0
  | .wakeup _ => 0
  | .subUnknown _ _ => 0
  | .bank _ _ => 1
  | .crcchk _ _ => 2
  | .rsv3 _ _ => 3
  | .rsv4 _ _ => 4
  | .freq _ _ => 5
  | .setw _ _ => 6
  | .seth _ _ => 7
  | .setoff _ _ => 8
  | .flags _ _ => 9
  | .op10 _ _ => 10
  | .op11 _ _ => 11
  | .op12 _ _ => 12
  | .op13 _ _ => 13
  | .op14 _ _ => 14
  | .op15 _ _ => 15

/-- The L field of a command (30_encoding.md R71); the preamble has none and is given 0. -/
def Instr.len : Instr → Nibble
  | .preamble => 0
  | .cram len => len
  | .bram len => len
  | .crcrst len => len
  | .wakeup len => len
  | .subUnknown len _ => len
  | .bank len _ => len
  | .crcchk len _ => len
  | .rsv3 len _ => len
  | .rsv4 len _ => len
  | .freq len _ => len
  | .setw len _ => len
  | .seth len _ => len
  | .setoff len _ => len
  | .flags len _ => len
  | .op10 len _ => len
  | .op11 len _ => len
  | .op12 len _ => len
  | .op13 len _ => len
  | .op14 len _ => len
  | .op15 len _ => len

/-- The payload of a command (30_encoding.md R72, R75); the preamble has none and is given 0. -/
def Instr.payload : Instr → Nat
  | .preamble => 0
  | .cram _ => 1
  | .bram _ => 3
  | .crcrst _ => 5
  | .wakeup _ => 6
  | .subUnknown _ p => p
  | .bank _ p => p
  | .crcchk _ p => p
  | .rsv3 _ p => p
  | .rsv4 _ p => p
  | .freq _ p => p
  | .setw _ p => p
  | .seth _ p => p
  | .setoff _ p => p
  | .flags _ p => p
  | .op10 _ p => p
  | .op11 _ p => p
  | .op12 _ p => p
  | .op13 _ p => p
  | .op14 _ p => p
  | .op15 _ p => p

/-- The bytes of a command with opcode `op`, length `len` and payload `p` (30_encoding.md R71, R72). -/
def encodeCommand (op len : Nibble) (p : Nat) : List Byte := cmdByte op len :: beBytes len.toNat p

/-- The bytes of an instruction in stream order (30_encoding.md R70 to R75). -/
def encode (i : Instr) : List Byte :=
  match i.context with
  | .sync => Config.preambleBytes
  | .run => encodeCommand i.opcode i.len i.payload

/-! ### The assembler (30_encoding.md R81 to R83) -/

/-- The fewest bytes, at most `fuel`, that hold `p`. -/
def byteCount : Nat → Nat → Nat
  | 0, _ => 0
  | fuel + 1, p => if p = 0 then 0 else byteCount fuel (p / 256) + 1

/-- The default payload length of the assembler: the smallest L that holds `p`, 0 for `p = 0`; `none` where no L up
to 15 holds it (30_encoding.md R82). -/
def defaultLen (p : Nat) : Option Nibble :=
  if p < 256 ^ Config.maxPayloadBytes then some (BitVec.ofNat 4 (byteCount Config.maxPayloadBytes p)) else none

/-- One assembler statement (30_encoding.md R81): the preamble directive, a command by opcode, payload and optional
`.Ln` suffix, or bytes verbatim. `CRAM`, `BRAM`, `CRCRST` and `WAKEUP` are `command 0` with payload 1, 3, 5 and 6 (R83). -/
inductive AsmStatement where
  | preamble
  | command (op : Nibble) (p : Nat) (force : Option Nibble)
  | bytes (bs : List Byte)
  deriving DecidableEq, Repr

/-- The bytes one statement emits; `none` is the assembly error of a payload that does not fit (30_encoding.md R82). -/
def assembleOne : AsmStatement → Option (List Byte)
  | .preamble => some Config.preambleBytes
  | .command op p none => (defaultLen p).map fun len => encodeCommand op len p
  | .command op p (some len) => if fitsIn len p then some (encodeCommand op len p) else none
  | .bytes bs => some bs

/-- The bytes of a program, statement by statement (30_encoding.md R81). -/
def assemble : List AsmStatement → Option (List Byte)
  | [] => some []
  | a :: rest =>
    match assembleOne a, assemble rest with
    | some bs, some more => some (bs ++ more)
    | _, _ => none

/-! ### A word of spec/opcode_table.json -/

/-- Where a table row of `nbits` bits is decoded: the only 32-bit row is PREAMBLE, every other row is a command byte. -/
def tableContext (nbits : Nat) : Context := if nbits = 32 then .sync else .run

/-- The instruction's bytes of a table word. PREAMBLE's row is ONE 32-bit word, stored big-endian (20_memory.md
R55(b)); a command row's words are bytes, the first least significant; every byte past `nbits` is 0, and the
instruction is 1 + L bytes (30_encoding.md R73). -/
def tableBytes (nbits w : Nat) : List Byte :=
  match tableContext nbits with
  | .sync => beBytes 4 w
  | .run =>
    match leBytes (nbits / 8) w ++ List.replicate 16 0#8 with
    | [] => []
    | b :: rest => b :: rest.take (lenField b).toNat

/-- The instruction the decoder reads from a table word. -/
def decodeTableWord (nbits w : Nat) : Option Instr :=
  match decode (tableContext nbits) (tableBytes nbits w) with
  | .ok (i, _) => some i
  | .error _ => none

end Sys2Proof
end

