-- ==== Sys2Proof/Machine/State.lean ====
section
/-! DEFINITION. The architectural state of CORE (10_state.md R20 to R47), its values after reset (R46), and the two
reason types of the host's interface. State is plain data. -/

namespace Sys2Proof.Machine

/-- TOP, the top-level state (10_state.md R21). -/
inductive Top where
  | sync
  | run
  | terminated
  | failed
  | modelFault
  deriving DecidableEq, Repr

/-- PHASE, the framing sub-state, meaningful when TOP is RUN (10_state.md R22). -/
inductive Phase where
  | cmd
  | payload
  | data
  | trailer
  deriving DecidableEq, Repr

/-- FREQ (10_state.md R32). -/
inductive Freq where
  | undefined
  | low
  | medium
  | high
  | unknown (v : Nat)
  deriving DecidableEq, Repr

/-- The two bit stores (10_state.md R38, R42). -/
inductive StoreId where
  | cram
  | bram
  deriving DecidableEq, Repr

/-- ERR_CODE (60_exceptions.md R180), by name. -/
inductive ErrCode where
  | noError
  | unexpectedEndOfStream
  | unknownCommand
  | unknownSubcommand
  | invalidFeatureFlags
  | malformedBlockSize
  deriving DecidableEq, Repr

/-- FAULT_REASON (10_state.md R41, 60_exceptions.md R186). -/
inductive FaultReason where
  | noFault
  | geometryUnset
  | storeLimitExceeded
  deriving DecidableEq, Repr

/-- A cell address (bank, x, y), three unbounded naturals (20_memory.md R52). -/
structure CellAddr where
  bank : Nat
  x : Nat
  y : Nat
  deriving DecidableEq, Repr

/-- One bit store: the written cells with their bits, addresses strictly rising in row-major order. A cell that is
not listed is `⊥` (10_state.md R42, 20_memory.md R54). -/
abbrev Memory := List (CellAddr × Bit)

structure State where
  /-- TOP (10_state.md R21). -/
  top : Top
  /-- PHASE (10_state.md R22). -/
  phase : Phase
  /-- STREAM_OFFSET, the bytes consumed since reset (10_state.md R24). -/
  streamOffset : Nat
  /-- SYNC_BYTES (10_state.md R25). -/
  syncBytes : OrUnset Nat
  /-- WINDOW, the synchronizer's shift register (10_state.md R36). -/
  window : BitVec 32
  /-- BANK (10_state.md R26). -/
  bank : OrUnset Nat
  /-- WIDTH (10_state.md R27). -/
  width : OrUnset Nat
  /-- HEIGHT (10_state.md R28). -/
  height : OrUnset Nat
  /-- OFFSET (10_state.md R29). -/
  offset : OrUnset Nat
  /-- CRC (10_state.md R30). -/
  crc : OrUnset (BitVec 16)
  /-- WARMBOOT (10_state.md R31). -/
  warmboot : OrUnset Bit
  /-- NOSLEEP (10_state.md R31). -/
  nosleep : OrUnset Bit
  /-- FREQ (10_state.md R32). -/
  freq : Freq
  /-- CRAM_EXT_W (10_state.md R33). -/
  cramExtW : OrUnset Nat
  /-- CRAM_EXT_H (10_state.md R33). -/
  cramExtH : OrUnset Nat
  /-- BRAM_EXT_W (10_state.md R34). -/
  bramExtW : OrUnset Nat
  /-- BRAM_EXT_H (10_state.md R34). -/
  bramExtH : OrUnset Nat
  /-- CMD_OP (10_state.md R37). -/
  cmdOp : Nibble
  /-- CMD_LEN (10_state.md R37). -/
  cmdLen : Nibble
  /-- PAY_REMAIN (10_state.md R37). -/
  payRemain : Nat
  /-- PAYLOAD (10_state.md R37). -/
  payload : Nat
  /-- CMD_OFFSET (10_state.md R37). -/
  cmdOffset : OrUnset Nat
  /-- BLK_STORE (10_state.md R38). -/
  blkStore : StoreId
  /-- BLK_BANK (10_state.md R38). -/
  blkBank : Nat
  /-- BLK_W (10_state.md R38). -/
  blkW : Nat
  /-- BLK_H (10_state.md R38). -/
  blkH : Nat
  /-- BLK_OFF (10_state.md R38). -/
  blkOff : Nat
  /-- BLK_BYTES (10_state.md R38). -/
  blkBytes : Nat
  /-- BLK_DONE (10_state.md R38). -/
  blkDone : Nat
  /-- TRL_DONE (10_state.md R38). -/
  trlDone : Nat
  /-- TRL_NONZERO (10_state.md R38). -/
  trlNonzero : Bit
  /-- TRAILER_WARNINGS (10_state.md R39). -/
  trailerWarnings : Nat
  /-- ERR_CODE (10_state.md R40). -/
  errCode : ErrCode
  /-- ERR_OFFSET (10_state.md R40). -/
  errOffset : OrUnset Nat
  /-- ERR_CMD_OFFSET (10_state.md R40). -/
  errCmdOffset : OrUnset Nat
  /-- ERR_OPCODE (10_state.md R40). -/
  errOpcode : OrUnset Nibble
  /-- ERR_PAYLOAD (10_state.md R40). -/
  errPayload : OrUnset Nat
  /-- ERR_PHASE, the value of (TOP, PHASE) when the error arose (10_state.md R40, 60_exceptions.md R182). -/
  errPhase : OrUnset (Top × Phase)
  /-- FAULT_REASON (10_state.md R41). -/
  faultReason : FaultReason
  /-- CRAM_STORE (10_state.md R42). -/
  cramStore : Memory
  /-- BRAM_STORE (10_state.md R42). -/
  bramStore : Memory
  /-- INPUT, the whole byte stream the host supplies, indexed from 0; the byte at index STREAM_OFFSET is the next one
  (20_memory.md R51). DEDUCED, log 2. -/
  input : List Byte
  /-- STORE_LIMIT, the open parameter (00_scope.md R9); no step writes it. DESIGN CHOICE, log 7. -/
  storeLimit : Option Nat
  deriving DecidableEq, Repr

/-- Why Lean's step stops: only in states that violate 10_state.md R43, which no run from reset reaches; there the
rules' pseudocode has no meaning. Every constructor is safe (log 11). The spec's own model faults are NOT here: they
are entries to TOP = MODEL_FAULT, next states (log 5). -/
inductive Fault where
  /-- Raised by step on a PAYLOAD byte when PAY_REMAIN is 0, outside the range 1 to 15 that 41_framing.md R102 gives
  its operand. Safe. -/
  | payloadCountZero
  /-- Raised by step on a DATA byte when BLK_DONE >= BLK_BYTES (against 10_state.md R43(d)) or BLK_W = 0 (a divisor
  that 00_scope.md R10 says is never 0). Safe. -/
  | blockCounterOutOfRange
  deriving DecidableEq, Repr

/-- Why an instruction has no meaning in the model. -/
inductive Refusal where
  /-- Raised by an arm of exec whose instruction has no meaning yet; no arm is left. Safe. -/
  | notModelled (mnemonic : String)
  deriving DecidableEq, Repr

/-- The machine right after reset (10_state.md R46, 70_reset_and_hazards.md R210). The host has placed no stream yet:
INPUT is empty (DESIGN CHOICE, log 3); STORE_LIMIT is its stated default, none (00_scope.md R9). -/
def State.reset : State where
  top := .sync
  phase := .cmd
  streamOffset := 0
  syncBytes := none
  window := 0x00000000#32
  bank := none
  width := none
  height := none
  offset := none
  crc := none
  warmboot := none
  nosleep := none
  freq := .undefined
  cramExtW := none
  cramExtH := none
  bramExtW := none
  bramExtH := none
  cmdOp := 0
  cmdLen := 0
  payRemain := 0
  payload := 0
  cmdOffset := none
  blkStore := .cram
  blkBank := 0
  blkW := 0
  blkH := 0
  blkOff := 0
  blkBytes := 0
  blkDone := 0
  trlDone := 0
  trlNonzero := false
  trailerWarnings := 0
  errCode := .noError
  errOffset := none
  errCmdOffset := none
  errOpcode := none
  errPayload := none
  errPhase := none
  faultReason := .noFault
  cramStore := []
  bramStore := []
  input := []
  storeLimit := none

end Sys2Proof.Machine
end

