-- ==== Sys2Proof/Machine/Ops.lean ====
section
/-! DEFINITION. The shared operations over stores and registers: the bit stores and MemWrite (20_memory.md R52), the
consumption of a byte and the framing's writes (41_framing.md R100 to R103), entry to FAILED (60_exceptions.md R182),
entry to MODEL_FAULT (R186), the end of the stream, and the host's reset, the only way back from either (R184,
70_reset_and_hazards.md R210). -/

namespace Sys2Proof.Machine

/-! ### Bit stores -/

/-- The listing order of cells: by bank, then row, then column. DESIGN CHOICE, safe, log 14: no rule sees it. -/
def CellAddr.before (a b : CellAddr) : Bool :=
  a.bank < b.bank || (a.bank == b.bank && (a.y < b.y || (a.y == b.y && a.x < b.x)))

/-- What a cell reads as: its bit, or `⊥` where nothing wrote it (20_memory.md R54). -/
def Memory.read (m : Memory) (a : CellAddr) : OrUnset Bit :=
  match m with
  | [] => none
  | (k, v) :: rest => if k = a then some v else Memory.read rest a

/-- A cell written, over any earlier bit (20_memory.md R52, 43_subcommands.md R158). -/
def Memory.write (m : Memory) (a : CellAddr) (bit : Bit) : Memory :=
  match m with
  | [] => [(a, bit)]
  | (k, v) :: rest =>
    if k = a then (a, bit) :: rest
    else if a.before k then (a, bit) :: (k, v) :: rest
    else (k, v) :: Memory.write rest a bit

/-- The canonical form: addresses strictly rising. Every listed cell holds a bit, so none reads as an unlisted one. -/
def Memory.wf (m : Memory) : Bool :=
  match m with
  | [] => true
  | (a, _) :: rest => (match rest with | [] => true | (b, _) :: _ => a.before b) && Memory.wf rest

/-- The store named `st`. -/
def State.store (s : State) (st : StoreId) : Memory :=
  match st with
  | .cram => s.cramStore
  | .bram => s.bramStore

/-- `s` with the store named `st` replaced. -/
def State.setStore (s : State) (st : StoreId) (m : Memory) : State :=
  match st with
  | .cram => { s with cramStore := m }
  | .bram => { s with bramStore := m }

/-- `MemRead((store, bank, x, y), 1)` (00_scope.md R11, 20_memory.md R54). -/
def State.memRead (s : State) (st : StoreId) (a : CellAddr) : OrUnset Bit := (s.store st).read a

/-- The number of written cells in all stores (20_memory.md R52). -/
def State.cellCount (s : State) : Nat := s.cramStore.length + s.bramStore.length

/-- `MemWrite((store, bank, x, y), 1, bit)`; `none` is the model fault STORE_LIMIT_EXCEEDED (20_memory.md R52). -/
def State.memWrite (s : State) (st : StoreId) (a : CellAddr) (bit : Bit) : Option State :=
  if s.memRead st a = none ∧ s.storeLimit = some s.cellCount then none
  else some (s.setStore st ((s.store st).write a bit))

/-- Cells written one after another, each seeing the count the earlier ones left (DEDUCED, log 8). -/
def State.memWriteAll (s : State) (st : StoreId) : List (CellAddr × Bit) → Option State
  | [] => some s
  | (a, bit) :: rest =>
    match s.memWrite st a bit with
    | none => none
    | some t => t.memWriteAll st rest

/-! ### Extents -/

/-- `max(x, v)` with `max(⊥, v) = v` (10_state.md R33). -/
def maxUnset (x : OrUnset Nat) (v : Nat) : OrUnset Nat :=
  match x with
  | none => some v
  | some u => some (max u v)

/-- EXT_W(s) (43_subcommands.md, before section 1). -/
def State.extW (s : State) (st : StoreId) : OrUnset Nat :=
  match st with
  | .cram => s.cramExtW
  | .bram => s.bramExtW

/-- EXT_H(s) (43_subcommands.md, before section 1). -/
def State.extH (s : State) (st : StoreId) : OrUnset Nat :=
  match st with
  | .cram => s.cramExtH
  | .bram => s.bramExtH

/-- The extent of one store raised to cover width `w` and rows up to `h` (10_state.md R33, R34). -/
def State.growExtent (s : State) (st : StoreId) (w h : Nat) : State :=
  match st with
  | .cram => { s with cramExtW := maxUnset s.cramExtW w, cramExtH := maxUnset s.cramExtH h }
  | .bram => { s with bramExtW := maxUnset s.bramExtW w, bramExtH := maxUnset s.bramExtH h }

/-! ### Errors and model faults -/

/-- Entry to FAILED: the one operation of `raise E(info)` (60_exceptions.md R182). `s` is the state at the start of
the step, so every other write of the step is discarded; `consumed` is 1 where the step consumed a byte, 0 for EOS. The
index of that byte, or of the missing one, is the STREAM_OFFSET of `s` either way. -/
def State.raise (s : State) (e : ErrCode) (cmdOff : OrUnset Nat) (op : OrUnset Nibble) (pay : OrUnset Nat)
    (consumed : Nat) : State :=
  { s with
    top := .failed
    errCode := e
    errOffset := some s.streamOffset
    errCmdOffset := cmdOff
    errOpcode := op
    errPayload := pay
    errPhase := some (s.top, s.phase)
    streamOffset := s.streamOffset + consumed }

/-- Entry to MODEL_FAULT: `modelfault R` in a step that consumed a byte (60_exceptions.md R186); `s` is the state at
the start of the step. -/
def State.modelFault (s : State) (r : FaultReason) : State :=
  { s with top := .modelFault, faultReason := r, streamOffset := s.streamOffset + 1 }

/-- The number of an error code (60_exceptions.md R180). -/
def ErrCode.number : ErrCode → Nat
  | .noError => 0
  | .unexpectedEndOfStream => 1
  | .unknownCommand => 2
  | .unknownSubcommand => 3
  | .invalidFeatureFlags => 4
  | .malformedBlockSize => 5

/-- EOS while a byte is needed: `raise UnexpectedEndOfStream` with what is known so far (40_synchronizer.md R91,
41_framing.md R104 and R105, 43_subcommands.md R154 and R155). -/
def State.endOfStream (s : State) : State :=
  match s.top, s.phase with
  | .run, .payload => s.raise .unexpectedEndOfStream s.cmdOffset (some s.cmdOp) none 0
  | .run, .data => s.raise .unexpectedEndOfStream s.cmdOffset (some 0) (some s.payload) 0
  | .run, .trailer => s.raise .unexpectedEndOfStream s.cmdOffset (some 0) (some s.payload) 0
  | _, _ => s.raise .unexpectedEndOfStream none none none 0

/-- The host's reset before a new stream: every piece of state at its reset value, nothing kept (70_reset_and_hazards.md
R210, R213). The parameter STORE_LIMIT is the machine's own and stays; INPUT is the new stream. There is no other
return from FAILED, MODEL_FAULT or TERMINATED (60_exceptions.md R184). -/
def State.restart (s : State) (stream : List Byte) : State :=
  { State.reset with input := stream, storeLimit := s.storeLimit }

/-! ### The dispatch step -/

/-- `c`, the index of the command byte of the command whose dispatch step this is: the byte being consumed in PHASE
CMD, CMD_OFFSET after that (41_framing.md R100, R102, R103). -/
def State.commandIndex (s : State) : OrUnset Nat :=
  if s.phase = .cmd then some s.streamOffset else s.cmdOffset

/-- The framing's writes in the dispatch step of the command `op`, `len`, `p`: those of the CMD step (41_framing.md
R100) where the command byte itself is consumed, those of the last PAYLOAD step (R102) otherwise. `p` is the complete
payload, 0 where `len` is 0. -/
def State.endFraming (s : State) (op len : Nibble) (p : Nat) : State :=
  { s with
    streamOffset := s.streamOffset + 1
    cmdOffset := s.commandIndex
    cmdOp := if s.phase = .cmd then op else s.cmdOp
    cmdLen := if s.phase = .cmd then len else s.cmdLen
    payRemain := if s.phase = .cmd then s.payRemain else s.payRemain - 1
    payload := p }

/-- The dispatch step of a command that sets neither TOP nor PHASE: the framing's writes, then PHASE <- CMD
(41_framing.md R103). -/
def State.commandDone (s : State) (op len : Nibble) (p : Nat) : State :=
  { s.endFraming op len p with phase := .cmd }

/-- An error raised inside Dispatch (41_framing.md R103). -/
def State.raiseDispatch (s : State) (e : ErrCode) (op : Nibble) (p : Nat) : State :=
  s.raise e s.commandIndex (some op) (some p) 1

end Sys2Proof.Machine
end

