-- ==== Sys2Proof/Machine/Operands.lean ====
section
/-! DEFINITION. Operands: the input byte of a step, the window and payload registers it is shifted into, the values
commands make of their payload, and the cells a data byte goes to. -/

namespace Sys2Proof.Machine

/-- The byte the host offers, INPUT[STREAM_OFFSET]; `none` is EOS (20_memory.md R51, 00_scope.md R12). -/
def State.nextByte (s : State) : Option Byte := s.input[s.streamOffset]?

/-- The window after byte `b`: `((WINDOW << 8) | b) mod 2^32` (40_synchronizer.md R90). -/
def shiftWindow (w : BitVec 32) (b : Byte) : BitVec 32 := (w <<< 8) ||| b.setWidth 32

/-- A SYNC step whose byte does not complete the preamble (40_synchronizer.md R90). -/
def State.shiftSync (s : State) (b : Byte) : State :=
  { s with window := shiftWindow s.window b, streamOffset := s.streamOffset + 1 }

/-- A CMD step with L >= 1: the command is opened, its payload is still to come (41_framing.md R100). -/
def State.openCommand (s : State) (b : Byte) : State :=
  { s with
    streamOffset := s.streamOffset + 1
    cmdOffset := some s.streamOffset
    cmdOp := opField b
    cmdLen := lenField b
    payload := 0
    payRemain := (lenField b).toNat
    phase := .payload }

/-- A PAYLOAD step that is not the last (41_framing.md R102). -/
def State.shiftPayload (s : State) (b : Byte) : State :=
  { s with
    streamOffset := s.streamOffset + 1
    payload := shiftIn s.payload b
    payRemain := s.payRemain - 1 }

/-- The value of WIDTH that a SETW payload gives (42_opcodes.md R127). -/
def widthOf (p : Nat) : Nat := p + 1

/-- The value of FREQ that a FREQ payload gives (42_opcodes.md R126). -/
def freqOf (p : Nat) : Freq :=
  if p = 0 then .low else if p = 1 then .medium else if p = 2 then .high else .unknown p

/-- The cell of bit index `i` of a block of width `w` at row `off` of bank `bank` (43_subcommands.md R152, R156). -/
def cellOf (bank w off i : Nat) : CellAddr where
  bank := bank
  x := i % w
  y := i / w + off

/-- The cell that bit `n` of the data byte now due goes to, `n = 0` the most significant (43_subcommands.md R152). -/
def State.dataCell (s : State) (n : Nat) : CellAddr :=
  cellOf s.blkBank s.blkW s.blkOff (8 * s.blkDone + n)

/-- The bit `b[7 - n]` of a data byte (43_subcommands.md R152, 20_memory.md R55(c)). -/
def dataBit (b : Byte) (n : Nat) : Bit := b.getLsbD (7 - n)

/-- The eight cell writes of one data byte, in order (43_subcommands.md R152). -/
def State.dataWrites (s : State) (b : Byte) : List (CellAddr × Bit) :=
  (List.range 8).map fun n => (s.dataCell n, dataBit b n)

/-- The payload value that selects a block command (30_encoding.md R75). -/
def StoreId.selector : StoreId → Nat
  | .cram => 1
  | .bram => 3

end Sys2Proof.Machine
end

