-- ==== Sys2Proof/Machine/Block.lean ====
section
/-! DEFINITION. The CRAM/BRAM block consumer (43_subcommands.md section 1): BlockStart, the DATA step, the TRAILER step. -/

namespace Sys2Proof.Machine

/-- BLK_* and TRL_* latched, the extent grown and PHASE moved, once the geometry is known to be legal
(43_subcommands.md R150). -/
def State.openBlock (s : State) (st : StoreId) (bank w h off : Nat) : State :=
  { s.growExtent st w (off + h) with
    blkStore := st
    blkBank := bank
    blkW := w
    blkH := h
    blkOff := off
    blkBytes := w * h / 8
    blkDone := 0
    trlDone := 0
    trlNonzero := false
    phase := if w * h = 0 then .trailer else .data }

/-- BlockStart(st), the dispatch step of a block command of length `len` and payload `p` (43_subcommands.md R150; the
order of the two checks is 60_exceptions.md R189). -/
def blockStart (st : StoreId) (len : Nibble) (p : Nat) (s : State) : State :=
  match s.bank, s.width, s.height, s.offset with
  | some bank, some w, some h, some off =>
    if w * h % 8 ≠ 0 then s.raiseDispatch .malformedBlockSize 0 p
    else (s.endFraming 0 len p).openBlock st bank w h off
  | _, _, _, _ => s.modelFault .geometryUnset

/-- The DATA step (43_subcommands.md R152): eight cells, or none of them where STORE_LIMIT is exceeded (60_exceptions.md
R186). A state outside the operand ranges of the rule, which no run reaches, faults (log 11). -/
def dataStep (b : Byte) (s : State) : Host.Outcome State Fault Refusal :=
  if s.blkDone < s.blkBytes ∧ 0 < s.blkW then
    match s.memWriteAll s.blkStore (s.dataWrites b) with
    | none => .next (s.modelFault .storeLimitExceeded)
    | some t =>
      .next { t with
        streamOffset := s.streamOffset + 1
        blkDone := s.blkDone + 1
        phase := if s.blkDone + 1 = s.blkBytes then .trailer else s.phase }
  else .fault .blockCounterOutOfRange

/-- The TRAILER step (43_subcommands.md R153). -/
def trailerStep (b : Byte) (s : State) : State :=
  if s.trlDone = 0 then
    { s with
      streamOffset := s.streamOffset + 1
      trlDone := 1
      trlNonzero := trailerFlag s.trlNonzero b }
  else
    { s with
      streamOffset := s.streamOffset + 1
      trlDone := 2
      trlNonzero := trailerFlag s.trlNonzero b
      trailerWarnings := if trailerFlag s.trlNonzero b then s.trailerWarnings + 1 else s.trailerWarnings
      phase := .cmd }

/-- CRAM, opcode 0 with P = 0x01 (43_subcommands.md R150). -/
def execCram (len : Nibble) (s : State) : Host.Outcome State Fault Refusal := .next (blockStart .cram len 1 s)

/-- BRAM, opcode 0 with P = 0x03 (43_subcommands.md R151). -/
def execBram (len : Nibble) (s : State) : Host.Outcome State Fault Refusal := .next (blockStart .bram len 3 s)

end Sys2Proof.Machine
end

