-- ==== Sys2Proof/Machine/Control.lean ====
section
/-! DEFINITION. The other opcode-0 sub-commands (43_subcommands.md section 2). -/

namespace Sys2Proof.Machine

/-- CRCRST, opcode 0 with P = 0x05 (43_subcommands.md R162). -/
def execCrcrst (len : Nibble) (s : State) : Host.Outcome State Fault Refusal :=
  .next { s.commandDone 0 len 5 with crc := some Config.crcResetValue }

/-- WAKEUP, opcode 0 with P = 0x06: TOP is written, PHASE is not (43_subcommands.md R163). -/
def execWakeup (len : Nibble) (s : State) : Host.Outcome State Fault Refusal :=
  .next { s.endFraming 0 len 6 with top := .terminated }

/-- SUB_UNKNOWN, opcode 0 with any other P (43_subcommands.md R164). The length plays no part: every framing write of
the step is discarded (60_exceptions.md R182). -/
def execSubUnknown (_len : Nibble) (p : Nat) (s : State) : Host.Outcome State Fault Refusal :=
  .next (s.raiseDispatch .unknownSubcommand 0 p)

end Sys2Proof.Machine
end

