-- ==== Sys2Proof/Machine/Geometry.lean ====
section
/-! DEFINITION. The four geometry commands (42_opcodes.md R122, R127 to R129). -/

namespace Sys2Proof.Machine

/-- BANK, opcode 1 (42_opcodes.md R122). -/
def execBank (len : Nibble) (p : Nat) (s : State) : Host.Outcome State Fault Refusal :=
  .next { s.commandDone 1 len p with bank := some p }

/-- SETW, opcode 6 (42_opcodes.md R127). -/
def execSetw (len : Nibble) (p : Nat) (s : State) : Host.Outcome State Fault Refusal :=
  .next { s.commandDone 6 len p with width := some (widthOf p) }

/-- SETH, opcode 7 (42_opcodes.md R128). -/
def execSeth (len : Nibble) (p : Nat) (s : State) : Host.Outcome State Fault Refusal :=
  .next { s.commandDone 7 len p with height := some p }

/-- SETOFF, opcode 8 (42_opcodes.md R129). -/
def execSetoff (len : Nibble) (p : Nat) (s : State) : Host.Outcome State Fault Refusal :=
  .next { s.commandDone 8 len p with offset := some p }

end Sys2Proof.Machine
end

