-- ==== Sys2Proof/Machine/Settings.lean ====
section
/-! DEFINITION. The device settings: CRC check request, frequency range, feature flags (42_opcodes.md R123, R126, R130). -/

namespace Sys2Proof.Machine

/-- CRCCHK, opcode 2: nothing beyond the framing (42_opcodes.md R123). -/
def execCrcchk (len : Nibble) (p : Nat) (s : State) : Host.Outcome State Fault Refusal :=
  .next (s.commandDone 2 len p)

/-- FREQ, opcode 5 (42_opcodes.md R126). -/
def execFreq (len : Nibble) (p : Nat) (s : State) : Host.Outcome State Fault Refusal :=
  .next { s.commandDone 5 len p with freq := freqOf p }

/-- FLAGS, opcode 9: both flags in one step, or an error and neither (42_opcodes.md R130). -/
def execFlags (len : Nibble) (p : Nat) (s : State) : Host.Outcome State Fault Refusal :=
  match featureFlags p with
  | some (warm, sleepless) => .next { s.commandDone 9 len p with warmboot := some warm, nosleep := some sleepless }
  | none => .next (s.raiseDispatch .invalidFeatureFlags 9 p)

end Sys2Proof.Machine
end

