-- ==== Sys2Proof/Machine/Sync.lean ====
section
/-! DEFINITION. The preamble synchronizer (40_synchronizer.md). -/

namespace Sys2Proof.Machine

/-- PREAMBLE: the SYNC step whose byte completes MAGIC (40_synchronizer.md R90). -/
def execPreamble (s : State) : Host.Outcome State Fault Refusal :=
  .next { s with
    window := Config.magic
    streamOffset := s.streamOffset + 1
    syncBytes := some (s.streamOffset + 1)
    top := .run
    phase := .cmd }

end Sys2Proof.Machine
end

