-- ==== Sys2Proof/Machine/Undefined.lean ====
section
/-! DEFINITION. The reserved opcodes 3 and 4 and the undefined opcodes 10 to 15 (42_opcodes.md R124, R125, R131 to R136).
Each is a fatal UnknownCommand after its payload is read. The length plays no part: every framing write of the step is
discarded (60_exceptions.md R182). -/

namespace Sys2Proof.Machine

/-- RSV3, opcode 3, reserved: the spec's decision D9 (42_opcodes.md R124). -/
def execRsv3 (_len : Nibble) (p : Nat) (s : State) : Host.Outcome State Fault Refusal :=
  .next (s.raiseDispatch .unknownCommand 3 p)

/-- RSV4, opcode 4, reserved: the spec's decision D9 (42_opcodes.md R125). -/
def execRsv4 (_len : Nibble) (p : Nat) (s : State) : Host.Outcome State Fault Refusal :=
  .next (s.raiseDispatch .unknownCommand 4 p)

/-- OP10, opcode 10, undefined (42_opcodes.md R131). -/
def execOp10 (_len : Nibble) (p : Nat) (s : State) : Host.Outcome State Fault Refusal :=
  .next (s.raiseDispatch .unknownCommand 10 p)

/-- OP11, opcode 11, undefined (42_opcodes.md R132). -/
def execOp11 (_len : Nibble) (p : Nat) (s : State) : Host.Outcome State Fault Refusal :=
  .next (s.raiseDispatch .unknownCommand 11 p)

/-- OP12, opcode 12, undefined (42_opcodes.md R133). -/
def execOp12 (_len : Nibble) (p : Nat) (s : State) : Host.Outcome State Fault Refusal :=
  .next (s.raiseDispatch .unknownCommand 12 p)

/-- OP13, opcode 13, undefined (42_opcodes.md R134). -/
def execOp13 (_len : Nibble) (p : Nat) (s : State) : Host.Outcome State Fault Refusal :=
  .next (s.raiseDispatch .unknownCommand 13 p)

/-- OP14, opcode 14, undefined (42_opcodes.md R135). -/
def execOp14 (_len : Nibble) (p : Nat) (s : State) : Host.Outcome State Fault Refusal :=
  .next (s.raiseDispatch .unknownCommand 14 p)

/-- OP15, opcode 15, undefined (42_opcodes.md R136). -/
def execOp15 (_len : Nibble) (p : Nat) (s : State) : Host.Outcome State Fault Refusal :=
  .next (s.raiseDispatch .unknownCommand 15 p)

end Sys2Proof.Machine
end

