-- ==== Sys2Proof/Machine/Dispatch.lean ====
section
/-! DEFINITION. The dispatch of 41_framing.md R103: one arm per constructor of Instr, each one call of its meaning.
`s` is the state at the START of the step that consumes the instruction's last byte (log 12). -/

namespace Sys2Proof.Machine

def exec (i : Instr) (s : State) : Host.Outcome State Fault Refusal :=
  match i with
  | .preamble => Sys2Proof.Machine.execPreamble s
  | .cram len => Sys2Proof.Machine.execCram len s
  | .bram len => Sys2Proof.Machine.execBram len s
  | .crcrst len => Sys2Proof.Machine.execCrcrst len s
  | .wakeup len => Sys2Proof.Machine.execWakeup len s
  | .subUnknown len p => Sys2Proof.Machine.execSubUnknown len p s
  | .bank len p => Sys2Proof.Machine.execBank len p s
  | .crcchk len p => Sys2Proof.Machine.execCrcchk len p s
  | .rsv3 len p => Sys2Proof.Machine.execRsv3 len p s
  | .rsv4 len p => Sys2Proof.Machine.execRsv4 len p s
  | .freq len p => Sys2Proof.Machine.execFreq len p s
  | .setw len p => Sys2Proof.Machine.execSetw len p s
  | .seth len p => Sys2Proof.Machine.execSeth len p s
  | .setoff len p => Sys2Proof.Machine.execSetoff len p s
  | .flags len p => Sys2Proof.Machine.execFlags len p s
  | .op10 len p => Sys2Proof.Machine.execOp10 len p s
  | .op11 len p => Sys2Proof.Machine.execOp11 len p s
  | .op12 len p => Sys2Proof.Machine.execOp12 len p s
  | .op13 len p => Sys2Proof.Machine.execOp13 len p s
  | .op14 len p => Sys2Proof.Machine.execOp14 len p s
  | .op15 len p => Sys2Proof.Machine.execOp15 len p s

end Sys2Proof.Machine
end

