-- ==== Sys2Proof/Machine/Fetch.lean ====
section
/-! DEFINITION. What the next step of CORE is: the dispatch of an instruction whose last byte is offered, or a step of
the synchronizer, the framing, the block consumer, or the end of the stream (00_scope.md R12, 41_framing.md R100 to R105).
Also how a word of the opcode table is placed so that the very next step runs it. -/

namespace Sys2Proof.Machine

/-- The kind of the next step. -/
inductive Fetched where
  /-- The offered byte completes instruction `i`: this is its dispatch step. -/
  | instr (i : Instr)
  /-- Any other step, with its outcome. -/
  | other (o : Host.Outcome State Fault Refusal)

/-- A step in SYNC with byte `b` (40_synchronizer.md R90). -/
def fetchSync (b : Byte) (s : State) : Fetched :=
  if shiftWindow s.window b = Config.magic then .instr .preamble else .other (.next (s.shiftSync b))

/-- A CMD step with byte `b`: with L = 0 it is a dispatch step (41_framing.md R100). -/
def fetchCmd (b : Byte) (s : State) : Fetched :=
  if lenField b = 0 then .instr (ofCommand (opField b) 0 0) else .other (.next (s.openCommand b))

/-- A PAYLOAD step with byte `b`: the last payload byte makes it a dispatch step (41_framing.md R102). PAY_REMAIN = 0,
which no run reaches, is outside the rule's operand range and faults (log 11). -/
def fetchPayload (b : Byte) (s : State) : Fetched :=
  if s.payRemain = 0 then .other (.fault .payloadCountZero)
  else if s.payRemain = 1 then .instr (ofCommand s.cmdOp s.cmdLen (shiftIn s.payload b))
  else .other (.next (s.shiftPayload b))

/-- A step in RUN with byte `b`, by PHASE (10_state.md R22). -/
def fetchRun (b : Byte) (s : State) : Fetched :=
  match s.phase with
  | .cmd => fetchCmd b s
  | .payload => fetchPayload b s
  | .data => .other (dataStep b s)
  | .trailer => .other (.next (trailerStep b s))

/-- The next step, by TOP. EOS is the absence of a byte at INPUT[STREAM_OFFSET]; a quiescent CORE has no step and stays
as it is (70_reset_and_hazards.md R215; DEDUCED, log 6). -/
def fetch (s : State) : Fetched :=
  match s.top, s.nextByte with
  | .sync, some b => fetchSync b s
  | .run, some b => fetchRun b s
  | .sync, none => .other (.next s.endOfStream)
  | .run, none => .other (.next s.endOfStream)
  | .terminated, _ => .other (.next s)
  | .failed, _ => .other (.next s)
  | .modelFault, _ => .other (.next s)

/-- INPUT with `bs` at index `k` and nothing after: the bytes before `k` stay, zero bytes fill a gap. -/
def placeAt (k : Nat) (input bs : List Byte) : List Byte :=
  (input ++ List.replicate (k - input.length) 0#8).take k ++ bs

/-- `s` with the instruction of a table word placed at the stream position and all but its last byte consumed, so that
the very next step is its dispatch step (log 3). PREAMBLE is placed in SYNC, a command in RUN. -/
def State.placeTableWord (s : State) (nbits w : Nat) : State :=
  let bs := tableBytes nbits w
  let k := s.streamOffset
  match tableContext nbits with
  | .sync =>
    { s with
      input := placeAt k s.input bs
      top := .sync
      streamOffset := k + 3
      window := BitVec.ofNat 32 (beValue (bs.take 3)) }
  | .run =>
    match bs with
    | [] => s
    | b :: pay =>
      if lenField b = 0 then { s with input := placeAt k s.input bs, top := .run, phase := .cmd }
      else
        { s with
          input := placeAt k s.input bs
          top := .run
          phase := .payload
          streamOffset := k + (lenField b).toNat
          cmdOffset := some k
          cmdOp := opField b
          cmdLen := lenField b
          payRemain := 1
          payload := beValue (pay.take ((lenField b).toNat - 1)) }

end Sys2Proof.Machine
end

