-- ==== Sys2Proof/Machine/Readback.lean ====
section
/-! DEFINITION. What the host can see of CORE: the outputs of a quiescent CORE (10_state.md R45), the read of a cell
(20_memory.md R54), and the interface signals (70_reset_and_hazards.md R221). No step of CORE uses this file. -/

namespace Sys2Proof.Machine

/-- The result of a successful decode (10_state.md R45). -/
structure Configuration where
  cramStore : Memory
  bramStore : Memory
  cramExtW : OrUnset Nat
  cramExtH : OrUnset Nat
  bramExtW : OrUnset Nat
  bramExtH : OrUnset Nat
  freq : Freq
  warmboot : OrUnset Bit
  nosleep : OrUnset Bit
  crc : OrUnset (BitVec 16)
  trailerWarnings : Nat
  syncBytes : OrUnset Nat
  streamOffset : Nat
  deriving DecidableEq, Repr

/-- The error record (10_state.md R40). -/
structure ErrorRecord where
  code : ErrCode
  offset : OrUnset Nat
  cmdOffset : OrUnset Nat
  opcode : OrUnset Nibble
  payload : OrUnset Nat
  phase : OrUnset (Top × Phase)
  deriving DecidableEq, Repr

/-- What the host reads (10_state.md R44, R45). -/
inductive Readout where
  /-- SYNC and RUN: the host reads nothing. -/
  | nothing
  /-- TERMINATED: the configuration. -/
  | configuration (c : Configuration)
  /-- FAILED: the error record alone. -/
  | failure (e : ErrorRecord)
  /-- MODEL_FAULT: the model makes no claim of any output. -/
  | unclaimed
  deriving DecidableEq, Repr

/-- The configuration held in the registers and stores. -/
def State.configuration (s : State) : Configuration where
  cramStore := s.cramStore
  bramStore := s.bramStore
  cramExtW := s.cramExtW
  cramExtH := s.cramExtH
  bramExtW := s.bramExtW
  bramExtH := s.bramExtH
  freq := s.freq
  warmboot := s.warmboot
  nosleep := s.nosleep
  crc := s.crc
  trailerWarnings := s.trailerWarnings
  syncBytes := s.syncBytes
  streamOffset := s.streamOffset

/-- The error record held in the ERR_ registers. -/
def State.errorRecord (s : State) : ErrorRecord where
  code := s.errCode
  offset := s.errOffset
  cmdOffset := s.errCmdOffset
  opcode := s.errOpcode
  payload := s.errPayload
  phase := s.errPhase

/-- The outputs, by TOP (10_state.md R45). -/
def State.readout (s : State) : Readout :=
  match s.top with
  | .sync => .nothing
  | .run => .nothing
  | .terminated => .configuration s.configuration
  | .failed => .failure s.errorRecord
  | .modelFault => .unclaimed

/-- The host's read of one cell: possible in TERMINATED alone (20_memory.md R54, 10_state.md R45). The outer `none` is
"no read possible", the inner one `⊥`. -/
def State.hostRead (s : State) (st : StoreId) (a : CellAddr) : Option (OrUnset Bit) :=
  if s.top = .terminated then some (s.memRead st a) else none

/-- DONE (70_reset_and_hazards.md R221). -/
def State.doneSignal (s : State) : Bool := s.top == .terminated

/-- FAILED (70_reset_and_hazards.md R221). -/
def State.failedSignal (s : State) : Bool := s.top == .failed

/-- ERR_CODE as the host reads it beside DONE and FAILED once CORE is quiescent: its number (60_exceptions.md R180), 0 in
TERMINATED (70_reset_and_hazards.md R221). `none` is "no read": in SYNC and RUN (10_state.md R44), and in MODEL_FAULT,
where R45 has the model claim no output. DEDUCED, safe, log 20. -/
def State.errCodeSignal (s : State) : Option Nat :=
  match s.top with
  | .sync => none
  | .run => none
  | .terminated => some s.errCode.number
  | .failed => some s.errCode.number
  | .modelFault => none

/-- CORE is not quiescent (70_reset_and_hazards.md R214, R215). -/
def State.active (s : State) : Bool := s.top == .sync || s.top == .run

/-- accept: the step consumes a byte, one is offered and CORE is not quiescent (70_reset_and_hazards.md R221). -/
def State.accepts (s : State) : Bool := s.active && s.nextByte.isSome

end Sys2Proof.Machine
end

