-- ==== Sys2Proof/Safety.lean ====
section
/-! DEFINITION. The invariants of CORE that statements use: the canonical form of the stores, the ranges and relations
of 10_state.md R43 and 00_scope.md R8 (`State.Sound`), and the agreement of the hidden registers with the bytes consumed
so far (`State.TracksInput`). -/

namespace Sys2Proof.Machine

/-- Both bit stores are in canonical form. -/
abbrev State.StoresCanonical (s : State) : Prop :=
  Memory.wf s.cramStore = true ∧ Memory.wf s.bramStore = true

/-- `⊥`, or a value with `P`. -/
abbrev OrUnset.Holds {α : Type} (x : OrUnset α) (P : α → Prop) : Prop := ∀ v, x = some v → P v

/-- Extents only grow, `⊥` below every number (10_state.md R43(b)). -/
def unsetLe (x y : OrUnset Nat) : Prop :=
  match x, y with
  | none, _ => True
  | some _, none => False
  | some u, some v => u ≤ v

/-- No register exceeds its width (00_scope.md R8, 10_state.md R26 to R40). -/
structure State.WithinWidths (s : State) : Prop where
  bank : OrUnset.Holds s.bank (· < 2 ^ 120)
  width : OrUnset.Holds s.width (fun w => 1 ≤ w ∧ w ≤ 2 ^ 120)
  height : OrUnset.Holds s.height (· < 2 ^ 120)
  offset : OrUnset.Holds s.offset (· < 2 ^ 120)
  freq : ∀ v, s.freq = .unknown v → 3 ≤ v ∧ v < 2 ^ 120
  payRemain : s.payRemain ≤ 15
  payload : s.payload < 2 ^ 120
  extW : ∀ st, OrUnset.Holds (s.extW st) (fun w => 1 ≤ w ∧ w ≤ 2 ^ 120)
  extH : ∀ st, OrUnset.Holds (s.extH st) (· ≤ 2 ^ 121 - 2)
  blkBank : s.blkBank < 2 ^ 120
  blkW : s.blkW ≤ 2 ^ 120
  blkH : s.blkH < 2 ^ 120
  blkOff : s.blkOff < 2 ^ 120
  errPayload : OrUnset.Holds s.errPayload (· < 2 ^ 120)

/-- The framing registers are in range while a payload is read (10_state.md R37, 41_framing.md R102). -/
structure State.FramingInRange (s : State) : Prop where
  remaining : s.top = .run → s.phase = .payload → 1 ≤ s.payRemain ∧ s.payRemain ≤ s.cmdLen.toNat
  partialPayload : s.top = .run → s.phase = .payload → s.payload < 256 ^ (s.cmdLen.toNat - s.payRemain)

/-- The block consumer's registers agree with each other and with the geometry while a block is read (10_state.md R38,
R43(d), 43_subcommands.md R150, R152). -/
structure State.BlockInRange (s : State) : Prop where
  bytes : 8 * s.blkBytes = s.blkW * s.blkH
  done : s.blkDone ≤ s.blkBytes
  trailer : s.trlDone ≤ 2
  dataLeft : s.top = .run → s.phase = .data → s.blkDone < s.blkBytes
  trailerFresh : s.top = .run → s.phase = .data → s.trlDone = 0 ∧ s.trlNonzero = false
  allRead : s.top = .run → s.phase = .trailer → s.blkDone = s.blkBytes ∧ s.trlDone ≤ 1
  latched : s.top = .run → (s.phase = .data ∨ s.phase = .trailer) →
    s.bank = some s.blkBank ∧ s.width = some s.blkW ∧ s.height = some s.blkH ∧ s.offset = some s.blkOff
  inExtent : s.top = .run → s.phase = .data →
    unsetLe (some s.blkW) (s.extW s.blkStore) ∧ unsetLe (some (s.blkOff + s.blkH)) (s.extH s.blkStore)
  selector : s.top = .run → (s.phase = .data ∨ s.phase = .trailer) →
    s.cmdOp = 0 ∧ s.payload = s.blkStore.selector

/-- Every written cell of store `st` lies inside its extent (10_state.md R43(e)); without an extent there is none. -/
def State.CellsInExtent (s : State) (st : StoreId) : Prop :=
  ∀ a bit, s.memRead st a = some bit → unsetLe (some (a.x + 1)) (s.extW st) ∧ unsetLe (some (a.y + 1)) (s.extH st)

/-- At most STORE_LIMIT cells are written, where the parameter is set (00_scope.md R9). -/
def State.WithinLimit (s : State) : Prop := ∀ n, s.storeLimit = some n → s.cellCount ≤ n

/-- TOP, the error record and FAULT_REASON agree (10_state.md R40, R41). -/
structure State.StatusAgrees (s : State) : Prop where
  failed : s.top = .failed ↔ s.errCode ≠ .noError
  fault : s.top = .modelFault ↔ s.faultReason ≠ .noFault
  noRecord : s.errCode = .noError →
    s.errOffset = none ∧ s.errCmdOffset = none ∧ s.errOpcode = none ∧ s.errPayload = none ∧ s.errPhase = none

/-- While TOP is SYNC every register but WINDOW and STREAM_OFFSET holds its reset value, and no match has been seen;
the match leaves MAGIC in WINDOW for good (40_synchronizer.md R95, 10_state.md R36). -/
structure State.SyncFresh (s : State) : Prop where
  fresh : s.top = .sync →
    s = { State.reset with
      streamOffset := s.streamOffset, window := s.window, input := s.input, storeLimit := s.storeLimit }
  matched : s.window = Config.magic ↔ s.syncBytes ≠ none
  running : s.top = .run → s.syncBytes ≠ none

/-- What holds of the registers in every reachable state (10_state.md R43). -/
structure State.Sound (s : State) : Prop where
  stores : s.StoresCanonical
  widths : s.WithinWidths
  framing : s.FramingInRange
  block : s.BlockInRange
  cells : ∀ st, s.CellsInExtent st
  limit : s.WithinLimit
  status : s.StatusAgrees
  sync : s.SyncFresh

/-- The value of the last four bytes of `bs`, zeros standing in for missing ones (40_synchronizer.md R93). -/
def lastFourValue (bs : List Byte) : Nat := beValue ((List.replicate 4 0#8 ++ bs).drop bs.length)

/-- The bytes consumed so far (20_memory.md R51). -/
abbrev State.consumed (s : State) : List Byte := s.input.take s.streamOffset

/-- The hidden registers hold what the consumed bytes say: WINDOW the last four in SYNC (40_synchronizer.md R93), the
framing registers the command byte at CMD_OFFSET and the payload bytes after it (41_framing.md R100, R102). -/
structure State.TracksInput (s : State) : Prop where
  position : s.streamOffset ≤ s.input.length
  window : s.top = .sync → s.window.toNat = lastFourValue s.consumed
  command : s.top = .run → s.phase = .payload →
    1 ≤ s.payRemain ∧
    ∃ c got, s.cmdOffset = some c ∧ s.consumed.drop c = cmdByte s.cmdOp s.cmdLen :: got ∧
      c < s.streamOffset ∧ got.length + s.payRemain = s.cmdLen.toNat ∧ s.payload = beValue got

/-- `n` steps of CORE. -/
abbrev State.runSteps (s : State) (n : Nat) : Host.Outcome State Fault Refusal := Sys2Proof.core.run n s

end Sys2Proof.Machine
end

