-- ==== Sys2Proof/Certificates/Slice0/Obligations.lean ====
section
/-! DEFINITION. The statements for the provers. Register effects are written out as record updates, so that an equation
states the new values AND that every other field (registers, stores, INPUT) is unchanged. The helpers of
Sys2Proof.Claims spell out the writes of the dispatch step and the error record from 41_framing.md R100, R102 and
60_exceptions.md R182, without the model's own operations. -/

open Sys2Proof Sys2Proof.Machine

namespace Sys2Proof.Claims

/-- The writes of the dispatch step of a command `op`, `len`, `p`: in PHASE CMD those of a CMD step with the command
byte at index STREAM_OFFSET (41_framing.md R100), else those of the last PAYLOAD step (R102). -/
def framed (s : State) (op len : Nibble) (p : Nat) : State :=
  match s.phase with
  | .cmd =>
    { s with
      streamOffset := s.streamOffset + 1, cmdOffset := some s.streamOffset, cmdOp := op, cmdLen := len, payload := p }
  | _ => { s with streamOffset := s.streamOffset + 1, payload := p, payRemain := s.payRemain - 1 }

/-- Entry to FAILED from a step that started in `s` (60_exceptions.md R182); `consumed` is 1 for a consumed byte. -/
def failed (s : State) (e : ErrCode) (c : OrUnset Nat) (op : OrUnset Nibble) (p : OrUnset Nat) (consumed : Nat) : State :=
  { s with
    top := .failed, errCode := e, errOffset := some s.streamOffset, errCmdOffset := c, errOpcode := op, errPayload := p,
    errPhase := some (s.top, s.phase), streamOffset := s.streamOffset + consumed }

/-- Entry to FAILED from the dispatch step of `op`, `p` (41_framing.md R103). -/
def failedDispatch (s : State) (e : ErrCode) (op : Nibble) (p : Nat) : State :=
  failed s e (match s.phase with | .cmd => some s.streamOffset | _ => s.cmdOffset) (some op) (some p) 1

/-- Entry to MODEL_FAULT from a step that consumed a byte (60_exceptions.md R186). -/
def modelFaulted (s : State) (r : FaultReason) : State :=
  { s with top := .modelFault, faultReason := r, streamOffset := s.streamOffset + 1 }

/-- `max(x, v)` with `max(⊥, v) = v` (10_state.md R33). -/
def raised (x : OrUnset Nat) (v : Nat) : OrUnset Nat := some (max (x.getD 0) v)

/-- The cell of bit index `i` of the block being read (43_subcommands.md R152). -/
def blockCell (s : State) (i : Nat) : CellAddr := ⟨s.blkBank, i % s.blkW, i / s.blkW + s.blkOff⟩

/-- How many of the eight cells of the next data byte hold no bit yet. -/
def newCells (s : State) : Nat :=
  ((List.range 8).filter fun n => (s.memRead s.blkStore (blockCell s (8 * s.blkDone + n))).isNone).length

/-- A step in DATA is due on byte `b`, in the operand ranges of 43_subcommands.md R152. -/
structure DataDue (s : State) (b : Byte) : Prop where
  top : s.top = .run
  phase : s.phase = .data
  byte : s.nextByte = some b
  left : s.blkDone < s.blkBytes
  width : 0 < s.blkW

/-- Two states agree but for the contents of the two stores. -/
def AgreeButStores (s t : State) : Prop := t = { s with cramStore := t.cramStore, bramStore := t.bramStore }

/-- Two states agree but for the registers no rule reads: CRC, WARMBOOT, NOSLEEP, FREQ, SYNC_BYTES and
TRAILER_WARNINGS (10_state.md R25, R30 to R32, R35, R39). -/
def AgreeButOutputs (s t : State) : Prop :=
  t = { s with
    crc := t.crc, warmboot := t.warmboot, nosleep := t.nosleep, freq := t.freq, syncBytes := t.syncBytes,
    trailerWarnings := t.trailerWarnings }

/-- Two outcomes are of the same kind, with related next states or the same reason. -/
def Related (R : State → State → Prop) (x y : Host.Outcome State Fault Refusal) : Prop :=
  match x, y with
  | .next s, .next t => R s t
  | .fault a, .fault b => a = b
  | .refused a, .refused b => a = b
  | _, _ => False

/-- The state after all but the last byte of the command `i`, opened at STREAM_OFFSET of `s` in PHASE CMD. -/
def beforeLastByte (s : State) (i : Instr) : State :=
  if i.len = 0 then s
  else
    { s with
      phase := .payload, streamOffset := s.streamOffset + i.len.toNat, cmdOffset := some s.streamOffset,
      cmdOp := i.opcode, cmdLen := i.len, payRemain := 1, payload := i.payload / 256 }

/-- PREAMBLE occurs in `bs` at index `p`. -/
def preambleAt (bs : List Byte) (p : Nat) : Prop := (bs.drop p).take 4 = [0x7E#8, 0xAA#8, 0x99#8, 0x7E#8]

end Sys2Proof.Claims

open Sys2Proof.Claims

/-! ### Reset -/

/-- Every register at the value of 10_state.md R46. The table's values are the spec's own decisions D1, D3 to D7, D14
to D16 and D29 where the source gives none. INPUT and STORE_LIMIT are not stated: log 3, log 7. -/
def Obligations.ResetGivesTheTabledValues : Prop :=
  State.reset = { State.reset with
    top := .sync, phase := .cmd, streamOffset := 0, syncBytes := none, window := 0x00000000#32,
    bank := none, width := none, height := none, offset := none, crc := none, warmboot := none, nosleep := none,
    freq := .undefined, cramExtW := none, cramExtH := none, bramExtW := none, bramExtH := none,
    cmdOp := 0, cmdLen := 0, payRemain := 0, payload := 0, cmdOffset := none,
    blkStore := .cram, blkBank := 0, blkW := 0, blkH := 0, blkOff := 0, blkBytes := 0, blkDone := 0,
    trlDone := 0, trlNonzero := false, trailerWarnings := 0,
    errCode := .noError, errOffset := none, errCmdOffset := none, errOpcode := none, errPayload := none, errPhase := none,
    faultReason := .noFault, cramStore := [], bramStore := [] }

/-- Reset is the way out of every quiescent state and keeps nothing of the decode (70_reset_and_hazards.md R210,
60_exceptions.md R184); the parameter STORE_LIMIT stays and INPUT is the new stream (log 3, log 7, log 18: the model's choice). -/
def Obligations.RestartKeepsNothingOfTheDecode : Prop :=
  ∀ (s t : State) (stream : List Byte), s.storeLimit = t.storeLimit →
    s.restart stream = t.restart stream ∧ (s.restart stream).top = .sync ∧ (s.restart stream).input = stream ∧
    s.restart stream = { State.reset with input := stream, storeLimit := s.storeLimit }

/-! ### Encoding -/

/-- Words written out from 30_encoding.md R71 to R75 and the examples of 42_opcodes.md decode to what they stand for. -/
def Obligations.WordsDecodeAsTheSpecWritesThem : Prop :=
  decode .sync [0x7E, 0xAA, 0x99, 0x7E] = .ok (.preamble, []) ∧
  decode .run [0x01, 0x01] = .ok (.cram 1, []) ∧
  decode .run [0x01, 0x03] = .ok (.bram 1, []) ∧
  decode .run [0x02, 0x00, 0x06] = .ok (.wakeup 2, []) ∧
  decode .run [0x00] = .ok (.subUnknown 0 0, []) ∧
  decode .run [0x14, 0x12, 0x34, 0x56, 0x78] = .ok (.bank 4 0x12345678, []) ∧
  decode .run [0x62, 0x00, 0x27, 0x91] = .ok (.setw 2 39, [0x91]) ∧
  decode .run [0x91, 0x21] = .ok (.flags 1 33, []) ∧
  decode .run [0xA1, 0x55] = .ok (.op10 1 0x55, []) ∧
  decode .run [0x62, 0x00] = .error .payloadCutShort

/-- The opcode map of 30_encoding.md R74 and the sub-command map of R75, by the value of the whole payload. -/
def Obligations.OpcodeAndSubcommandMaps : Prop :=
  ∀ (len : Nibble) (p : Nat),
    ofCommand 0 len 1 = .cram len ∧ ofCommand 0 len 3 = .bram len ∧ ofCommand 0 len 5 = .crcrst len ∧
    ofCommand 0 len 6 = .wakeup len ∧
    (p ≠ 1 → p ≠ 3 → p ≠ 5 → p ≠ 6 → ofCommand 0 len p = .subUnknown len p) ∧
    ofCommand 1 len p = .bank len p ∧ ofCommand 2 len p = .crcchk len p ∧ ofCommand 3 len p = .rsv3 len p ∧
    ofCommand 4 len p = .rsv4 len p ∧ ofCommand 5 len p = .freq len p ∧ ofCommand 6 len p = .setw len p ∧
    ofCommand 7 len p = .seth len p ∧ ofCommand 8 len p = .setoff len p ∧ ofCommand 9 len p = .flags len p ∧
    ofCommand 10 len p = .op10 len p ∧ ofCommand 11 len p = .op11 len p ∧ ofCommand 12 len p = .op12 len p ∧
    ofCommand 13 len p = .op13 len p ∧ ofCommand 14 len p = .op14 len p ∧ ofCommand 15 len p = .op15 len p

/-- Decoding an encoded well-formed instruction gives it back, with the bytes after it untouched. -/
def Obligations.DecodeOfEncodeIsTheInstruction : Prop :=
  ∀ (i : Instr) (rest : List Byte), i.WellFormed → decode i.context (encode i ++ rest) = .ok (i, rest)

/-- What the decoder accepts is well-formed and encodes to the bytes it was read from. -/
def Obligations.EncodeOfDecodeIsTheBytes : Prop :=
  ∀ (c : Context) (bs rest : List Byte) (i : Instr), decode c bs = .ok (i, rest) →
    i.WellFormed ∧ i.context = c ∧ encode i ++ rest = bs

/-- The payload is the big-endian sum of 30_encoding.md R72, 0 for no bytes, and at most 2^120 - 1. -/
def Obligations.PayloadIsTheBigEndianSum : Prop :=
  (∀ bs : List Byte, beValue bs = ∑ k ∈ Finset.range bs.length, (bs.getD k 0).toNat * 256 ^ (bs.length - 1 - k)) ∧
  beValue [] = 0 ∧
  (∀ bs : List Byte, bs.length ≤ 15 → beValue bs ≤ 2 ^ 120 - 1)

/-- A payload with leading zero bytes selects the same command with the same payload (20_memory.md R56). -/
def Obligations.LeadingZeroBytesKeepThePayload : Prop :=
  ∀ (op len : Nibble) (pay rest : List Byte) (zeros : Nat), len.toNat = zeros + pay.length →
    decode .run (cmdByte op len :: (List.replicate zeros 0#8 ++ pay ++ rest)) =
      .ok (ofCommand op len (beValue pay), rest)

/-- The assembler's default length is the least that holds the payload, and the emitted bytes decode to the command
(30_encoding.md R82; the syntax is the spec's own, D22). -/
def Obligations.AssemblerEmitsTheShortestCommand : Prop :=
  ∀ (op : Nibble) (p : Nat), p < 2 ^ 120 →
    ∃ len : Nibble, defaultLen p = some len ∧ fitsIn len p = true ∧ (∀ m : Nibble, fitsIn m p = true → len.toNat ≤ m.toNat) ∧
      ∃ bs, assembleOne (.command op p none) = some bs ∧ decode .run bs = .ok (ofCommand op len p, [])

/-! ### The step -/

/-- When the offered byte completes the preamble in SYNC, or completes bytes that decode to `i` in RUN, step is exec of
`i` at that state. Step adds nothing around exec: the consumption of the last byte is part of exec (log 12). -/
def Obligations.StepRunsTheDecodedInstruction : Prop :=
  ∀ (s : State) (b : Byte), s.nextByte = some b →
    (s.top = .sync → (s.window <<< 8) ||| b.setWidth 32 = 0x7EAA997E#32 → step s = exec .preamble s) ∧
    (s.top = .run → s.phase = .cmd → ∀ i, decode .run [b] = .ok (i, []) → step s = exec i s) ∧
    (s.top = .run → s.phase = .payload → s.payRemain = 1 → ∀ (got : List Byte) (i : Instr),
      got.length + 1 = s.cmdLen.toNat → s.payload = beValue got →
      decode .run (cmdByte s.cmdOp s.cmdLen :: (got ++ [b])) = .ok (i, []) → step s = exec i s)

/-- From PHASE CMD with the bytes of a whole command in INPUT at the stream position, as many steps as the command has
bytes run exactly that instruction, as its decoder reads it, in the state after all but the last byte. -/
def Obligations.CommandBytesInInputRunAsDecoded : Prop :=
  ∀ (s : State) (i : Instr) (rest : List Byte), s.top = .run → s.phase = .cmd →
    decode .run (s.input.drop s.streamOffset) = .ok (i, rest) →
    s.runSteps i.len.toNat = .next (beforeLastByte s i) ∧
    step (beforeLastByte s i) = exec i (beforeLastByte s i) ∧
    s.runSteps (i.len.toNat + 1) = exec i (beforeLastByte s i)

/-- A table word placed by withFetchWord in any state is run by the very next step, as the decoder reads it (log 3). -/
def Obligations.PlacedTableWordRunsNext : Prop :=
  ∀ (s : State) (nbits w : Nat) (i : Instr), decodeTableWord nbits w = some i →
    step (s.withFetchWord nbits w) = exec i (s.withFetchWord nbits w)

/-- A SYNC byte shifts the window and counts; it matches exactly where the whole 32-bit window is MAGIC, and then also
writes SYNC_BYTES, TOP and PHASE (40_synchronizer.md R90). The match is PREAMBLE's own effect. -/
def Obligations.SyncByteShiftsOrMatches : Prop :=
  (∀ (s : State) (b : Byte), s.top = .sync → s.nextByte = some b →
    let w := (s.window <<< 8) ||| b.setWidth 32
    step s = .next (if w = 0x7EAA997E#32 then
      { s with
        window := w, streamOffset := s.streamOffset + 1, syncBytes := some (s.streamOffset + 1), top := .run, phase := .cmd }
      else { s with window := w, streamOffset := s.streamOffset + 1 })) ∧
  (∀ s : State, exec .preamble s = .next { s with
    window := 0x7EAA997E#32, streamOffset := s.streamOffset + 1, syncBytes := some (s.streamOffset + 1), top := .run, phase := .cmd })

/-- With the first occurrence of the preamble at index p, the synchronizer consumes exactly p + 4 bytes, is still in
SYNC before that, and leaves the source at p + 4 with nothing else changed (40_synchronizer.md R92). It is stated of any
state at stream position 0 with an empty window; that a reset state is one is the spec's decision D4. -/
def Obligations.SynchronizerStopsAtTheFirstPreamble : Prop :=
  ∀ (s : State) (p : Nat), s.top = .sync → s.streamOffset = 0 → s.window = 0#32 →
    preambleAt s.input p → (∀ q < p, ¬ preambleAt s.input q) →
    (∀ k < p + 4, ∃ t, s.runSteps k = .next t ∧ t.top = .sync ∧ t.streamOffset = k) ∧
    s.runSteps (p + 4) = .next { s with
      top := .run, phase := .cmd, window := 0x7EAA997E#32, syncBytes := some (p + 4), streamOffset := p + 4 }

/-- Once TOP is no longer SYNC no step returns to it, and none writes WINDOW or SYNC_BYTES: the preamble is never sought
again (30_encoding.md R80, 70_reset_and_hazards.md R218). -/
def Obligations.NoResynchronisation : Prop :=
  ∀ s t : State, step s = .next t → s.top ≠ .sync → t.top ≠ .sync ∧ t.window = s.window ∧ t.syncBytes = s.syncBytes

/-- A command byte with L >= 1 opens its payload; with L = 0 it dispatches the opcode with payload 0 (41_framing.md
R100). A payload byte is shifted in, and the last one dispatches CMD_OP with the whole payload (R102). -/
def Obligations.FramingOpensShiftsAndDispatches : Prop :=
  (∀ (s : State) (b : Byte), s.top = .run → s.phase = .cmd → s.nextByte = some b →
    step s =
      if b.extractLsb' 0 4 = 0#4 then exec (ofCommand (b.extractLsb' 4 4) 0 0) s
      else .next { s with
        streamOffset := s.streamOffset + 1, cmdOffset := some s.streamOffset, cmdOp := b.extractLsb' 4 4,
        cmdLen := b.extractLsb' 0 4, payload := 0, payRemain := (b.extractLsb' 0 4).toNat, phase := .payload }) ∧
  (∀ (s : State) (b : Byte), s.top = .run → s.phase = .payload → s.nextByte = some b → 1 ≤ s.payRemain →
    step s =
      if s.payRemain = 1 then exec (ofCommand s.cmdOp s.cmdLen (s.payload * 256 + b.toNat)) s
      else .next { s with
        streamOffset := s.streamOffset + 1, payload := s.payload * 256 + b.toNat, payRemain := s.payRemain - 1 })

/-- Every step that consumes a byte adds exactly 1 to STREAM_OFFSET, in every TOP and PHASE, errors included, and an EOS
step adds nothing (41_framing.md section on R101); that bytes consumed in SYNC count too is the spec's decision D3. A
quiescent CORE adds nothing (70_reset_and_hazards.md section on R215, the spec's decision D33); that its step answers the
same state is log 6. -/
def Obligations.EveryConsumedByteIsCountedOnce : Prop :=
  ∀ s t : State, step s = .next t →
    t.streamOffset = s.streamOffset + (if (s.top = .sync ∨ s.top = .run) ∧ s.nextByte ≠ none then 1 else 0)

/-- No step writes INPUT (20_memory.md R51, R64) or the parameter STORE_LIMIT (log 7). -/
def Obligations.NoStepWritesInput : Prop :=
  ∀ s t : State, step s = .next t → t.input = s.input ∧ t.storeLimit = s.storeLimit

/-! ### The end of the stream -/

/-- EOS at a command byte and inside a data block is a fatal UnexpectedEndOfStream with the record the rules give, and
changes nothing else (41_framing.md R104, 43_subcommands.md R154). -/
def Obligations.EndOfStreamAtCommandAndInData : Prop :=
  (∀ s : State, s.top = .run → s.phase = .cmd → s.nextByte = none →
    step s = .next (failed s .unexpectedEndOfStream none none none 0)) ∧
  (∀ s : State, s.top = .run → s.phase = .data → s.nextByte = none →
    step s = .next (failed s .unexpectedEndOfStream s.cmdOffset (some 0) (some s.payload) 0))

/-- EOS in SYNC is fatal with no command recorded (40_synchronizer.md section on R91; that ERR_PHASE then holds the pair
of SYNC and PHASE is log 10). EOS inside a payload records no payload (the spec's decision D32, 41_framing.md section on
R105). EOS inside a trailer is fatal too (D12, 43_subcommands.md section on R155). -/
def Obligations.EndOfStreamInScanPayloadAndTrailer : Prop :=
  (∀ s : State, s.top = .sync → s.nextByte = none →
    step s = .next (failed s .unexpectedEndOfStream none none none 0)) ∧
  (∀ s : State, s.top = .run → s.phase = .payload → s.nextByte = none →
    step s = .next (failed s .unexpectedEndOfStream s.cmdOffset (some s.cmdOp) none 0)) ∧
  (∀ s : State, s.top = .run → s.phase = .trailer → s.nextByte = none →
    step s = .next (failed s .unexpectedEndOfStream s.cmdOffset (some 0) (some s.payload) 0))

/-! ### Commands: result, completion and frame -/

/-- BANK, SETW, SETH and SETOFF complete from every state and write their register alone (42_opcodes.md R122, R127 to
R129). -/
def Obligations.GeometryCommandsWriteTheirRegister : Prop :=
  ∀ (s : State) (len : Nibble) (p : Nat),
    exec (.bank len p) s = .next { framed s 1 len p with bank := some p, phase := .cmd } ∧
    exec (.setw len p) s = .next { framed s 6 len p with width := some (p + 1), phase := .cmd } ∧
    exec (.seth len p) s = .next { framed s 7 len p with height := some p, phase := .cmd } ∧
    exec (.setoff len p) s = .next { framed s 8 len p with offset := some p, phase := .cmd }

/-- FREQ completes from every state and writes FREQ alone (42_opcodes.md R126). -/
def Obligations.FreqWritesTheSelectedRange : Prop :=
  ∀ (s : State) (len : Nibble) (p : Nat),
    exec (.freq len p) s = .next { framed s 5 len p with
      freq := (match p with | 0 => .low | 1 => .medium | 2 => .high | _ => .unknown p), phase := .cmd }

/-- FLAGS writes both flags together for its four legal selectors and fails with neither written for any other
(42_opcodes.md R130). -/
def Obligations.FlagsWritesBothOrFails : Prop :=
  ∀ (s : State) (len : Nibble),
    exec (.flags len 0) s = .next { framed s 9 len 0 with warmboot := some false, nosleep := some false, phase := .cmd } ∧
    exec (.flags len 1) s = .next { framed s 9 len 1 with warmboot := some false, nosleep := some true, phase := .cmd } ∧
    exec (.flags len 32) s = .next { framed s 9 len 32 with warmboot := some true, nosleep := some false, phase := .cmd } ∧
    exec (.flags len 33) s = .next { framed s 9 len 33 with warmboot := some true, nosleep := some true, phase := .cmd } ∧
    (∀ p, p ∉ [0, 1, 32, 33] → exec (.flags len p) s = .next (failedDispatch s .invalidFeatureFlags 9 p))

/-- CRCCHK completes from every state and changes nothing beyond the framing, for any payload and any CRC (42_opcodes.md
section on R123; that no CRC is checked is the spec's decision D21). -/
def Obligations.CrcCheckChangesNothing : Prop :=
  ∀ (s : State) (len : Nibble) (p : Nat), exec (.crcchk len p) s = .next { framed s 2 len p with phase := .cmd }

/-- CRCRST completes from every state and writes CRC alone (43_subcommands.md R162). -/
def Obligations.CrcResetWritesAllOnes : Prop :=
  ∀ (s : State) (len : Nibble), exec (.crcrst len) s = .next { framed s 0 len 5 with crc := some 0xFFFF#16, phase := .cmd }

/-- WAKEUP completes from every state: TOP is TERMINATED, PHASE is not written (43_subcommands.md R163). -/
def Obligations.WakeupTerminatesTheDecode : Prop :=
  ∀ (s : State) (len : Nibble), exec (.wakeup len) s = .next { framed s 0 len 6 with top := .terminated }

/-- Opcode 0 with any payload but 1, 3, 5, 6 is SUB_UNKNOWN, whose effect is the fatal UnknownSubcommand
(43_subcommands.md R164). -/
def Obligations.UnknownSubcommandFails : Prop :=
  ∀ (s : State) (len : Nibble) (p : Nat), p ∉ [1, 3, 5, 6] →
    ofCommand 0 len p = .subUnknown len p ∧
    exec (.subUnknown len p) s = .next (failedDispatch s .unknownSubcommand 0 p)

/-- The undefined opcodes 10 to 15 raise UnknownCommand with their opcode and payload, always (42_opcodes.md R131 to R136). -/
def Obligations.UndefinedOpcodesFail : Prop :=
  ∀ (s : State) (len : Nibble) (p : Nat),
    exec (.op10 len p) s = .next (failedDispatch s .unknownCommand 10 p) ∧
    exec (.op11 len p) s = .next (failedDispatch s .unknownCommand 11 p) ∧
    exec (.op12 len p) s = .next (failedDispatch s .unknownCommand 12 p) ∧
    exec (.op13 len p) s = .next (failedDispatch s .unknownCommand 13 p) ∧
    exec (.op14 len p) s = .next (failedDispatch s .unknownCommand 14 p) ∧
    exec (.op15 len p) s = .next (failedDispatch s .unknownCommand 15 p)

/-- The reserved opcodes 3 and 4 raise UnknownCommand: the spec's decision D9 (42_opcodes.md sections on R124, R125). -/
def Obligations.ReservedOpcodesFail : Prop :=
  ∀ (s : State) (len : Nibble) (p : Nat),
    exec (.rsv3 len p) s = .next (failedDispatch s .unknownCommand 3 p) ∧
    exec (.rsv4 len p) s = .next (failedDispatch s .unknownCommand 4 p)

/-- CRAM and BRAM with the geometry set and W x H a multiple of 8 complete: the block registers latch the geometry, the
extent of their own store grows, PHASE is DATA or, for an empty block, TRAILER (43_subcommands.md sections on R150, R151;
latching is the spec's decision D29, the initial extent D7). -/
def Obligations.BlockStartLatchesAndGrowsTheExtent : Prop :=
  ∀ (s : State) (len : Nibble) (bank w h off : Nat), s.bank = some bank → s.width = some w → s.height = some h →
    s.offset = some off → w * h % 8 = 0 →
    exec (.cram len) s = .next { framed s 0 len 1 with
      blkStore := .cram, blkBank := bank, blkW := w, blkH := h, blkOff := off, blkBytes := w * h / 8, blkDone := 0,
      trlDone := 0, trlNonzero := false, cramExtW := raised s.cramExtW w, cramExtH := raised s.cramExtH (off + h),
      phase := if w * h = 0 then .trailer else .data } ∧
    exec (.bram len) s = .next { framed s 0 len 3 with
      blkStore := .bram, blkBank := bank, blkW := w, blkH := h, blkOff := off, blkBytes := w * h / 8, blkDone := 0,
      trlDone := 0, trlNonzero := false, bramExtW := raised s.bramExtW w, bramExtH := raised s.bramExtH (off + h),
      phase := if w * h = 0 then .trailer else .data }

/-- A block command whose W x H is no multiple of 8 fails before any register or extent is written (the spec's decision
D10), and one with an unset geometry register is the model fault GEOMETRY_UNSET, checked first (D5, D11). -/
def Obligations.BlockStartRefusesBadGeometry : Prop :=
  (∀ (s : State) (len : Nibble) (bank w h off : Nat), s.bank = some bank → s.width = some w → s.height = some h →
    s.offset = some off → w * h % 8 ≠ 0 →
    exec (.cram len) s = .next (failedDispatch s .malformedBlockSize 0 1) ∧
    exec (.bram len) s = .next (failedDispatch s .malformedBlockSize 0 3)) ∧
  (∀ (s : State) (len : Nibble), (s.bank = none ∨ s.width = none ∨ s.height = none ∨ s.offset = none) →
    exec (.cram len) s = .next (modelFaulted s .geometryUnset) ∧
    exec (.bram len) s = .next (modelFaulted s .geometryUnset))

/-- No command writes a cell of either store, INPUT or the parameter: every cell reads as before (42_opcodes.md R120,
20_memory.md R52). -/
def Obligations.NoCommandWritesAStore : Prop :=
  ∀ (i : Instr) (s t : State), exec i s = .next t →
    t.input = s.input ∧ t.storeLimit = s.storeLimit ∧ ∀ st a, t.memRead st a = s.memRead st a

/-- BANK, WIDTH, HEIGHT, OFFSET, CRC, WARMBOOT, NOSLEEP and FREQ change in a step only where that step dispatches the one
command that writes them (10_state.md sections on R26 to R32, 42_opcodes.md section on R137). -/
def Obligations.OnlyItsCommandWritesARegister : Prop :=
  ∀ s t : State, step s = .next t →
    (t.bank ≠ s.bank → ∃ len p, fetch s = .instr (.bank len p)) ∧
    (t.width ≠ s.width → ∃ len p, fetch s = .instr (.setw len p)) ∧
    (t.height ≠ s.height → ∃ len p, fetch s = .instr (.seth len p)) ∧
    (t.offset ≠ s.offset → ∃ len p, fetch s = .instr (.setoff len p)) ∧
    (t.crc ≠ s.crc → ∃ len, fetch s = .instr (.crcrst len)) ∧
    (t.warmboot ≠ s.warmboot ∨ t.nosleep ≠ s.nosleep → ∃ len p, fetch s = .instr (.flags len p)) ∧
    (t.freq ≠ s.freq → ∃ len p, fetch s = .instr (.freq len p))

/-! ### The block consumer and the stores -/

/-- A data byte writes its eight cells, most significant bit first, in row-major order, and nothing else of either store;
the block counter and STREAM_OFFSET advance, and the last byte moves PHASE to TRAILER (43_subcommands.md R152). The
parameter STORE_LIMIT, where it is set, leaves room for the byte's new cells; the other case is the next statement. -/
def Obligations.DataByteFillsEightCells : Prop :=
  ∀ (s : State) (b : Byte), DataDue s b →
    (∀ n, s.storeLimit = some n → s.StoresCanonical ∧ s.cellCount + newCells s ≤ n) →
    ∃ t, step s = .next t ∧
      t = { s with
        cramStore := t.cramStore, bramStore := t.bramStore, streamOffset := s.streamOffset + 1, blkDone := s.blkDone + 1,
        phase := if s.blkDone + 1 = s.blkBytes then .trailer else .data } ∧
      (∀ n < 8, t.memRead s.blkStore (blockCell s (8 * s.blkDone + n)) = some (b.getLsbD (7 - n))) ∧
      (∀ st a, (st = s.blkStore → ∀ n < 8, a ≠ blockCell s (8 * s.blkDone + n)) → t.memRead st a = s.memRead st a)

/-- With STORE_LIMIT set, a data byte that needs more new cells than are left is the model fault STORE_LIMIT_EXCEEDED and
writes none of its cells; one that does not completes (the spec's open parameter D28; that the count within one step is
sequential is log 8). -/
def Obligations.StoreLimitStopsTheByteThatExceedsIt : Prop :=
  ∀ (s : State) (b : Byte) (n : Nat), DataDue s b → s.StoresCanonical → s.storeLimit = some n → s.cellCount ≤ n →
    (n < s.cellCount + newCells s → step s = .next (modelFaulted s .storeLimitExceeded)) ∧
    (s.cellCount + newCells s ≤ n → ∃ t, step s = .next t ∧ t.top = .run ∧ t.cellCount = s.cellCount + newCells s)

/-- A trailer byte sets TRL_NONZERO; the second ends the block and counts one warning where either byte was non-zero
(43_subcommands.md section on R153; the unit of a warning is the spec's decision D15). -/
def Obligations.TrailerBytesEndTheBlock : Prop :=
  ∀ (s : State) (b : Byte), s.top = .run → s.phase = .trailer → s.nextByte = some b →
    step s = .next (
      if s.trlDone = 0 then
        { s with streamOffset := s.streamOffset + 1, trlDone := 1, trlNonzero := s.trlNonzero || decide (b ≠ 0#8) }
      else
        { s with
          streamOffset := s.streamOffset + 1, trlDone := 2, trlNonzero := s.trlNonzero || decide (b ≠ 0#8),
          trailerWarnings := s.trailerWarnings + (if s.trlNonzero = true ∨ b ≠ 0#8 then 1 else 0), phase := .cmd })

/-- The closed form of a block: after all its data bytes every cell (B, i mod W, i div W + O), i < W x H, holds bit
7 - (i mod 8) of byte i div 8, every other cell reads as before, and PHASE is TRAILER (43_subcommands.md R156). -/
def Obligations.WholeBlockFillsItsCells : Prop :=
  ∀ s : State, s.top = .run → s.phase = .data → s.blkDone = 0 → 0 < s.blkBytes → 8 * s.blkBytes = s.blkW * s.blkH →
    s.streamOffset + s.blkBytes ≤ s.input.length → s.storeLimit = none →
    ∃ t, s.runSteps s.blkBytes = .next t ∧
      t = { s with
        cramStore := t.cramStore, bramStore := t.bramStore, streamOffset := s.streamOffset + s.blkBytes,
        blkDone := s.blkBytes, phase := .trailer } ∧
      (∀ i < s.blkW * s.blkH,
        t.memRead s.blkStore (blockCell s i) =
          some (((s.input.getD (s.streamOffset + i / 8) 0).getLsbD (7 - i % 8)))) ∧
      (∀ st a, (st = s.blkStore → ∀ i < s.blkW * s.blkH, a ≠ blockCell s i) → t.memRead st a = s.memRead st a)

/-- MemWrite: at STORE_LIMIT a new cell is refused; otherwise the cell reads the bit written, over any earlier one, every
other cell of either store reads as before, and no register changes (20_memory.md section on R52, D17, D28). -/
def Obligations.MemWriteReplacesOneCell : Prop :=
  ∀ (s : State) (st : StoreId) (a : CellAddr) (bit : Bit),
    (s.memRead st a = none → s.storeLimit = some s.cellCount → s.memWrite st a bit = none) ∧
    ((s.memRead st a ≠ none ∨ s.storeLimit ≠ some s.cellCount) →
      ∃ t, s.memWrite st a bit = some t ∧ t = { s with cramStore := t.cramStore, bramStore := t.bramStore } ∧
        t.memRead st a = some bit ∧ ∀ st' a', (st', a') ≠ (st, a) → t.memRead st' a' = s.memRead st' a')

/-- Every step keeps both stores in canonical form (addresses strictly rising). -/
def Obligations.EveryStepKeepsStoresCanonical : Prop :=
  ∀ s t : State, s.StoresCanonical → step s = .next t → t.StoresCanonical

/-- No extent ever shrinks, ⊥ below every number (10_state.md R43(b)). -/
def Obligations.ExtentsNeverShrink : Prop :=
  ∀ (s t : State), step s = .next t → ∀ st, unsetLe (s.extW st) (t.extW st) ∧ unsetLe (s.extH st) (t.extH st)

/-! ### Invariants over all states -/

/-- The invariants of 10_state.md R43, the widths of 00_scope.md R8 and the relations among the hidden registers: from
every state that has them step answers a next state, never a fault or a refusal, and the next state has them. -/
def Obligations.SoundStatesStepToSoundStates : Prop :=
  ∀ s : State, s.Sound → ∃ t, step s = .next t ∧ t.Sound

/-- The hidden registers hold what the bytes consumed so far say, in SYNC the last four bytes in WINDOW
(40_synchronizer.md R93), in a payload the command byte at CMD_OFFSET and the bytes after it (41_framing.md R102); every
step keeps that. -/
def Obligations.HiddenRegistersTrackTheInput : Prop :=
  ∀ s t : State, s.TracksInput → step s = .next t → t.TracksInput

/-- After the host's reset with any stream, and in the reset state itself, all these invariants hold. -/
def Obligations.ResetMeetsEveryInvariant : Prop :=
  State.reset.Sound ∧ State.reset.TracksInput ∧
  ∀ (s : State) (stream : List Byte), (s.restart stream).Sound ∧ (s.restart stream).TracksInput

/-- TOP moves only as 10_state.md R21 lists: SYNC to RUN on a match, SYNC or RUN to FAILED, RUN to TERMINATED by WAKEUP
alone, RUN to MODEL_FAULT on a model fault; the other three are absorbing. -/
def Obligations.TopMovesOnlyAsListed : Prop :=
  State.reset.top = .sync ∧
  ∀ s t : State, step s = .next t → t.top ≠ s.top →
    (s.top = .sync ∧ t.top = .run ∧ fetch s = .instr .preamble) ∨
    (s.top = .run ∧ t.top = .terminated ∧ ∃ len, fetch s = .instr (.wakeup len)) ∨
    ((s.top = .sync ∨ s.top = .run) ∧ t.top = .failed ∧ t.errCode ≠ .noError) ∨
    (s.top = .run ∧ t.top = .modelFault ∧ t.faultReason ≠ .noFault)

/-- A quiescent CORE changes no state, whatever INPUT offers (70_reset_and_hazards.md section on R215; that a step with
nothing to do answers the same state is log 6, DEDUCED). -/
def Obligations.QuiescentCoreStaysAsItIs : Prop :=
  ∀ s : State, s.top = .terminated ∨ s.top = .failed ∨ s.top = .modelFault →
    step s = .next s ∧ ∀ n, s.runSteps n = .next s

/-- Every entry to FAILED writes TOP and the error record alone, with the index of the byte whose consumption raised it
(or of the missing one) and (TOP, PHASE) at the start of the step; every other write of the step is discarded but the
STREAM_OFFSET increment of a consumed byte (60_exceptions.md section on R182). The record's contents are the spec's
decision D14 (log 16), and that the step's framing writes are discarded too is log 9. Which command, opcode and payload
are recorded is left to some values here: the statements about each error name them. -/
def Obligations.EntryToFailedDiscardsOtherWrites : Prop :=
  ∀ s t : State, step s = .next t → s.top ≠ .failed → t.top = .failed →
    ∃ e c op p, e ≠ .noError ∧ t = failed s e c op p (if s.nextByte = none then 0 else 1) ∧
      (e = .unexpectedEndOfStream ↔ s.nextByte = none)

/-- Every entry to MODEL_FAULT writes TOP, FAULT_REASON and STREAM_OFFSET alone (60_exceptions.md section on R186; the
two faults are the spec's decisions D5 and D28). -/
def Obligations.EntryToModelFaultDiscardsOtherWrites : Prop :=
  ∀ s t : State, step s = .next t → s.top ≠ .modelFault → t.top = .modelFault →
    (t = modelFaulted s .geometryUnset ∧
      (s.bank = none ∨ s.width = none ∨ s.height = none ∨ s.offset = none)) ∨
    (t = modelFaulted s .storeLimitExceeded ∧ s.phase = .data ∧ s.storeLimit ≠ none)

/-- The step bound: with n bytes left CORE is quiescent after n + 1 steps, from every sound state
(70_reset_and_hazards.md section on R220, derived there). -/
def Obligations.EveryRunEndsWithinTheBound : Prop :=
  ∀ s : State, s.Sound → ∃ t, s.runSteps (s.input.length - s.streamOffset + 1) = .next t ∧
    (t.top = .terminated ∨ t.top = .failed ∨ t.top = .modelFault)

/-- CORE never reads a store: without STORE_LIMIT, two runs that differ in the contents of the stores alone differ in
them alone, after any number of steps (20_memory.md section on R53). -/
def Obligations.StoresNeverInfluenceTheDecode : Prop :=
  ∀ (s s' : State) (n : Nat), s.storeLimit = none → AgreeButStores s s' →
    Related AgreeButStores (s.runSteps n) (s'.runSteps n)

/-- No rule reads CRC, WARMBOOT, NOSLEEP, FREQ, SYNC_BYTES or TRAILER_WARNINGS: two runs that differ in them alone
differ in them alone, after any number of steps (10_state.md sections on R25, R30 to R32, R35). -/
def Obligations.OutputRegistersNeverInfluenceTheDecode : Prop :=
  ∀ (s s' : State) (n : Nat), AgreeButOutputs s s' → Related AgreeButOutputs (s.runSteps n) (s'.runSteps n)

/-! ### What the host sees -/

/-- The host reads a cell in TERMINATED alone; there a written cell reads its bit, and every cell outside the extent
reads ⊥ (20_memory.md section on R54, derived there; ⊥ for unwritten cells is the spec's decision D16). -/
def Obligations.CellsOutsideTheExtentReadUnset : Prop :=
  ∀ (s : State) (st : StoreId) (a : CellAddr), s.Sound →
    (s.top ≠ .terminated → s.hostRead st a = none) ∧
    (s.top = .terminated → s.hostRead st a = some (s.memRead st a)) ∧
    (s.top = .terminated → (¬ unsetLe (some (a.x + 1)) (s.extW st) ∨ ¬ unsetLe (some (a.y + 1)) (s.extH st)) →
      s.hostRead st a = some none)

/-- The outputs by TOP: the configuration, the error record alone, or nothing (10_state.md section on R45; the outputs
added to the source's list are the spec's decisions D15, D18, D19). -/
def Obligations.ReadoutFollowsTop : Prop :=
  ∀ s : State,
    ((s.top = .sync ∨ s.top = .run) → s.readout = .nothing) ∧
    (s.top = .terminated → s.readout = .configuration ⟨s.cramStore, s.bramStore, s.cramExtW, s.cramExtH, s.bramExtW,
      s.bramExtH, s.freq, s.warmboot, s.nosleep, s.crc, s.trailerWarnings, s.syncBytes, s.streamOffset⟩) ∧
    (s.top = .failed → s.readout = .failure ⟨s.errCode, s.errOffset, s.errCmdOffset, s.errOpcode, s.errPayload, s.errPhase⟩) ∧
    (s.top = .modelFault → s.readout = .unclaimed)

/-- The interface signals by TOP: DONE, FAILED and ERR_CODE, which is 0 in TERMINATED and the error's number in FAILED
(70_reset_and_hazards.md section on R221, the spec's own interface, D2; the numbers are D13). That no ERR_CODE is claimed
in MODEL_FAULT is log 20. ERR_CODE's value in TERMINATED rests on the invariant that TOP and the error record agree. -/
def Obligations.InterfaceSignalsFollowTop : Prop :=
  ∀ s : State, s.StatusAgrees →
    ((s.top = .sync ∨ s.top = .run) →
      s.doneSignal = false ∧ s.failedSignal = false ∧ s.errCodeSignal = none ∧ (s.accepts = true ↔ s.nextByte ≠ none)) ∧
    (s.top = .terminated →
      s.doneSignal = true ∧ s.failedSignal = false ∧ s.errCodeSignal = some 0 ∧ s.accepts = false) ∧
    (s.top = .failed →
      s.doneSignal = false ∧ s.failedSignal = true ∧ s.accepts = false ∧
      s.errCodeSignal = some (match s.errCode with
        | .noError => 0
        | .unexpectedEndOfStream => 1
        | .unknownCommand => 2
        | .unknownSubcommand => 3
        | .invalidFeatureFlags => 4
        | .malformedBlockSize => 5) ∧
      s.errCodeSignal ≠ some 0) ∧
    (s.top = .modelFault →
      s.doneSignal = false ∧ s.failedSignal = false ∧ s.errCodeSignal = none ∧ s.accepts = false)
end

