-- ==== Sys2Proof/Laws/Decode.lean ====
section
/-! SUPPORT. The fields of the command byte, and the big-endian payload in both directions. -/

namespace Sys2Proof

/-! ### The command byte -/

@[simp] theorem opField_cmdByte (op len : Nibble) : opField (cmdByte op len) = op := by
  revert op len; decide

@[simp] theorem lenField_cmdByte (op len : Nibble) : lenField (cmdByte op len) = len := by
  revert op len; decide

/-- Every byte is a command byte (30_encoding.md R71). -/
theorem cmdByte_fields (b : Byte) : cmdByte (opField b) (lenField b) = b := by
  revert b; decide

/-- The sixteen opcodes. -/
theorem nibble_cases (op : Nibble) :
    op = 0 ∨ op = 1 ∨ op = 2 ∨ op = 3 ∨ op = 4 ∨ op = 5 ∨ op = 6 ∨ op = 7 ∨ op = 8 ∨ op = 9 ∨ op = 10 ∨ op = 11 ∨
      op = 12 ∨ op = 13 ∨ op = 14 ∨ op = 15 := by
  revert op; decide

/-- A nibble is 0 exactly where its value is. -/
theorem nibble_eq_zero (n : Nibble) : n = 0 ↔ n.toNat = 0 := by
  revert n; decide

/-! ### Big-endian values -/

theorem shiftInAll_append (p : Nat) (as bs : List Byte) :
    shiftInAll p (as ++ bs) = shiftInAll (shiftInAll p as) bs := by
  induction as generalizing p with
  | nil => rfl
  | cons a as ih => exact ih _

/-- Shifting in on top of `p` adds `p` at the high end. -/
theorem shiftInAll_eq (p : Nat) (bs : List Byte) : shiftInAll p bs = p * 256 ^ bs.length + beValue bs := by
  induction bs generalizing p with
  | nil => simp [shiftInAll, beValue]
  | cons b bs ih =>
    rw [beValue, shiftInAll, shiftInAll, ih, ih (shiftIn 0 b)]
    simp only [shiftIn, List.length_cons, pow_succ]
    ring

@[simp] theorem beValue_nil : beValue [] = 0 := rfl

theorem beValue_cons (b : Byte) (bs : List Byte) : beValue (b :: bs) = b.toNat * 256 ^ bs.length + beValue bs := by
  rw [beValue, shiftInAll, shiftInAll_eq]; simp [shiftIn]

/-- The last byte read is shifted in at the low end (41_framing.md R102). -/
theorem beValue_concat (bs : List Byte) (b : Byte) : beValue (bs ++ [b]) = shiftIn (beValue bs) b := by
  simp [beValue, shiftInAll_append, shiftInAll]

theorem beValue_lt (bs : List Byte) : beValue bs < 256 ^ bs.length := by
  induction bs with
  | nil => simp
  | cons b bs ih =>
    rw [beValue_cons, List.length_cons, pow_succ]
    have := b.isLt
    nlinarith

@[simp] theorem beBytes_length (n p : Nat) : (beBytes n p).length = n := by
  induction n with
  | zero => rfl
  | succ n ih => simp [beBytes, ih]

/-- The bytes of a value hold it modulo their range; exactly, where it fits (30_encoding.md R72). -/
theorem beValue_beBytes (n p : Nat) : beValue (beBytes n p) = p % 256 ^ n := by
  induction n with
  | zero => simp [beBytes, Nat.mod_one]
  | succ n ih =>
    have h := Nat.mod_mul (x := p) (a := 256 ^ n) (b := 256)
    rw [← Nat.pow_succ] at h
    rw [beBytes, beValue_cons, ih, beBytes_length, BitVec.toNat_ofNat, h]
    norm_num
    ring

/-- Bytes are the bytes of their value. -/
theorem beBytes_beValue (bs : List Byte) : beBytes bs.length (beValue bs) = bs := by
  induction bs with
  | nil => rfl
  | cons b bs ih =>
    have hlt := beValue_lt bs
    have hpos : 0 < 256 ^ bs.length := by positivity
    have hmod : ∀ n q r, r < 256 ^ n → beBytes n (q * 256 ^ n + r) = beBytes n r := by
      intro n
      induction n with
      | zero => intros; rfl
      | succ n ihn =>
        intro q r hr
        have hn : 0 < 256 ^ n := by positivity
        have h1 : (q * 256 ^ (n + 1) + r) / 256 ^ n = q * 256 + r / 256 ^ n := by
          rw [pow_succ, show q * (256 ^ n * 256) + r = r + (q * 256) * 256 ^ n by ring, Nat.add_mul_div_right _ _ hn]
          ring
        have h2 : ∀ x y, BitVec.ofNat 8 (x * 256 + y) = BitVec.ofNat 8 y := by
          intro x y; apply BitVec.eq_of_toNat_eq; simp [Nat.add_mod]
        have h3 : ∀ m, m % 256 ^ n + m / 256 ^ n * 256 ^ n = m := fun m => Nat.mod_add_div' m _
        simp only [beBytes, h1, h2, List.cons.injEq, true_and]
        rw [show q * 256 ^ (n + 1) + r = (q * 256 + r / 256 ^ n) * 256 ^ n + r % 256 ^ n by
          have := h3 r; rw [pow_succ]; nlinarith [this]]
        rw [ihn _ _ (Nat.mod_lt _ hn)]
        conv_rhs => rw [← h3 r, Nat.add_comm]
        rw [ihn _ _ (Nat.mod_lt _ hn)]
    rw [beValue_cons, List.length_cons, beBytes, hmod _ _ _ hlt, ih]
    rw [Nat.add_comm, Nat.add_mul_div_right _ _ hpos, Nat.div_eq_of_lt hlt]
    simp

/-- A payload of at most 15 bytes is below 2^120 (30_encoding.md R72). -/
theorem fitsIn_lt {len : Nibble} {p : Nat} (h : fitsIn len p = true) : p < 2 ^ 120 := by
  have h1 : p < 256 ^ len.toNat := by simpa [fitsIn] using h
  have h2 : (256 : Nat) ^ len.toNat ≤ 256 ^ 15 := Nat.pow_le_pow_right (by decide) (by omega)
  exact lt_of_lt_of_le h1 (le_trans h2 (by decide))

end Sys2Proof
end

