-- ==== Sys2Proof/Laws/State.lean ====
section
/-! SUPPORT. One lemma per field per update of State: what each shared operation leaves in each field. The stores after
setStore and the extents after growExtent and openBlock, which depend on the store named, stand in Laws/Memory.lean and
Laws/Block.lean. -/

namespace Sys2Proof.Machine

@[simp] theorem State.raise_top (s : State) (e : ErrCode) (c : OrUnset Nat) (op : OrUnset Nibble) (p : OrUnset Nat) (n : Nat) :
    (s.raise e c op p n).top = .failed := rfl
@[simp] theorem State.raise_phase (s : State) (e : ErrCode) (c : OrUnset Nat) (op : OrUnset Nibble) (p : OrUnset Nat) (n : Nat) :
    (s.raise e c op p n).phase = s.phase := rfl
@[simp] theorem State.raise_streamOffset (s : State) (e : ErrCode) (c : OrUnset Nat) (op : OrUnset Nibble) (p : OrUnset Nat) (n : Nat) :
    (s.raise e c op p n).streamOffset = s.streamOffset + n := rfl
@[simp] theorem State.raise_syncBytes (s : State) (e : ErrCode) (c : OrUnset Nat) (op : OrUnset Nibble) (p : OrUnset Nat) (n : Nat) :
    (s.raise e c op p n).syncBytes = s.syncBytes := rfl
@[simp] theorem State.raise_window (s : State) (e : ErrCode) (c : OrUnset Nat) (op : OrUnset Nibble) (p : OrUnset Nat) (n : Nat) :
    (s.raise e c op p n).window = s.window := rfl
@[simp] theorem State.raise_bank (s : State) (e : ErrCode) (c : OrUnset Nat) (op : OrUnset Nibble) (p : OrUnset Nat) (n : Nat) :
    (s.raise e c op p n).bank = s.bank := rfl
@[simp] theorem State.raise_width (s : State) (e : ErrCode) (c : OrUnset Nat) (op : OrUnset Nibble) (p : OrUnset Nat) (n : Nat) :
    (s.raise e c op p n).width = s.width := rfl
@[simp] theorem State.raise_height (s : State) (e : ErrCode) (c : OrUnset Nat) (op : OrUnset Nibble) (p : OrUnset Nat) (n : Nat) :
    (s.raise e c op p n).height = s.height := rfl
@[simp] theorem State.raise_offset (s : State) (e : ErrCode) (c : OrUnset Nat) (op : OrUnset Nibble) (p : OrUnset Nat) (n : Nat) :
    (s.raise e c op p n).offset = s.offset := rfl
@[simp] theorem State.raise_crc (s : State) (e : ErrCode) (c : OrUnset Nat) (op : OrUnset Nibble) (p : OrUnset Nat) (n : Nat) :
    (s.raise e c op p n).crc = s.crc := rfl
@[simp] theorem State.raise_warmboot (s : State) (e : ErrCode) (c : OrUnset Nat) (op : OrUnset Nibble) (p : OrUnset Nat) (n : Nat) :
    (s.raise e c op p n).warmboot = s.warmboot := rfl
@[simp] theorem State.raise_nosleep (s : State) (e : ErrCode) (c : OrUnset Nat) (op : OrUnset Nibble) (p : OrUnset Nat) (n : Nat) :
    (s.raise e c op p n).nosleep = s.nosleep := rfl
@[simp] theorem State.raise_freq (s : State) (e : ErrCode) (c : OrUnset Nat) (op : OrUnset Nibble) (p : OrUnset Nat) (n : Nat) :
    (s.raise e c op p n).freq = s.freq := rfl
@[simp] theorem State.raise_cramExtW (s : State) (e : ErrCode) (c : OrUnset Nat) (op : OrUnset Nibble) (p : OrUnset Nat) (n : Nat) :
    (s.raise e c op p n).cramExtW = s.cramExtW := rfl
@[simp] theorem State.raise_cramExtH (s : State) (e : ErrCode) (c : OrUnset Nat) (op : OrUnset Nibble) (p : OrUnset Nat) (n : Nat) :
    (s.raise e c op p n).cramExtH = s.cramExtH := rfl
@[simp] theorem State.raise_bramExtW (s : State) (e : ErrCode) (c : OrUnset Nat) (op : OrUnset Nibble) (p : OrUnset Nat) (n : Nat) :
    (s.raise e c op p n).bramExtW = s.bramExtW := rfl
@[simp] theorem State.raise_bramExtH (s : State) (e : ErrCode) (c : OrUnset Nat) (op : OrUnset Nibble) (p : OrUnset Nat) (n : Nat) :
    (s.raise e c op p n).bramExtH = s.bramExtH := rfl
@[simp] theorem State.raise_cmdOp (s : State) (e : ErrCode) (c : OrUnset Nat) (op : OrUnset Nibble) (p : OrUnset Nat) (n : Nat) :
    (s.raise e c op p n).cmdOp = s.cmdOp := rfl
@[simp] theorem State.raise_cmdLen (s : State) (e : ErrCode) (c : OrUnset Nat) (op : OrUnset Nibble) (p : OrUnset Nat) (n : Nat) :
    (s.raise e c op p n).cmdLen = s.cmdLen := rfl
@[simp] theorem State.raise_payRemain (s : State) (e : ErrCode) (c : OrUnset Nat) (op : OrUnset Nibble) (p : OrUnset Nat) (n : Nat) :
    (s.raise e c op p n).payRemain = s.payRemain := rfl
@[simp] theorem State.raise_payload (s : State) (e : ErrCode) (c : OrUnset Nat) (op : OrUnset Nibble) (p : OrUnset Nat) (n : Nat) :
    (s.raise e c op p n).payload = s.payload := rfl
@[simp] theorem State.raise_cmdOffset (s : State) (e : ErrCode) (c : OrUnset Nat) (op : OrUnset Nibble) (p : OrUnset Nat) (n : Nat) :
    (s.raise e c op p n).cmdOffset = s.cmdOffset := rfl
@[simp] theorem State.raise_blkStore (s : State) (e : ErrCode) (c : OrUnset Nat) (op : OrUnset Nibble) (p : OrUnset Nat) (n : Nat) :
    (s.raise e c op p n).blkStore = s.blkStore := rfl
@[simp] theorem State.raise_blkBank (s : State) (e : ErrCode) (c : OrUnset Nat) (op : OrUnset Nibble) (p : OrUnset Nat) (n : Nat) :
    (s.raise e c op p n).blkBank = s.blkBank := rfl
@[simp] theorem State.raise_blkW (s : State) (e : ErrCode) (c : OrUnset Nat) (op : OrUnset Nibble) (p : OrUnset Nat) (n : Nat) :
    (s.raise e c op p n).blkW = s.blkW := rfl
@[simp] theorem State.raise_blkH (s : State) (e : ErrCode) (c : OrUnset Nat) (op : OrUnset Nibble) (p : OrUnset Nat) (n : Nat) :
    (s.raise e c op p n).blkH = s.blkH := rfl
@[simp] theorem State.raise_blkOff (s : State) (e : ErrCode) (c : OrUnset Nat) (op : OrUnset Nibble) (p : OrUnset Nat) (n : Nat) :
    (s.raise e c op p n).blkOff = s.blkOff := rfl
@[simp] theorem State.raise_blkBytes (s : State) (e : ErrCode) (c : OrUnset Nat) (op : OrUnset Nibble) (p : OrUnset Nat) (n : Nat) :
    (s.raise e c op p n).blkBytes = s.blkBytes := rfl
@[simp] theorem State.raise_blkDone (s : State) (e : ErrCode) (c : OrUnset Nat) (op : OrUnset Nibble) (p : OrUnset Nat) (n : Nat) :
    (s.raise e c op p n).blkDone = s.blkDone := rfl
@[simp] theorem State.raise_trlDone (s : State) (e : ErrCode) (c : OrUnset Nat) (op : OrUnset Nibble) (p : OrUnset Nat) (n : Nat) :
    (s.raise e c op p n).trlDone = s.trlDone := rfl
@[simp] theorem State.raise_trlNonzero (s : State) (e : ErrCode) (c : OrUnset Nat) (op : OrUnset Nibble) (p : OrUnset Nat) (n : Nat) :
    (s.raise e c op p n).trlNonzero = s.trlNonzero := rfl
@[simp] theorem State.raise_trailerWarnings (s : State) (e : ErrCode) (c : OrUnset Nat) (op : OrUnset Nibble) (p : OrUnset Nat) (n : Nat) :
    (s.raise e c op p n).trailerWarnings = s.trailerWarnings := rfl
@[simp] theorem State.raise_errCode (s : State) (e : ErrCode) (c : OrUnset Nat) (op : OrUnset Nibble) (p : OrUnset Nat) (n : Nat) :
    (s.raise e c op p n).errCode = e := rfl
@[simp] theorem State.raise_errOffset (s : State) (e : ErrCode) (c : OrUnset Nat) (op : OrUnset Nibble) (p : OrUnset Nat) (n : Nat) :
    (s.raise e c op p n).errOffset = some s.streamOffset := rfl
@[simp] theorem State.raise_errCmdOffset (s : State) (e : ErrCode) (c : OrUnset Nat) (op : OrUnset Nibble) (p : OrUnset Nat) (n : Nat) :
    (s.raise e c op p n).errCmdOffset = c := rfl
@[simp] theorem State.raise_errOpcode (s : State) (e : ErrCode) (c : OrUnset Nat) (op : OrUnset Nibble) (p : OrUnset Nat) (n : Nat) :
    (s.raise e c op p n).errOpcode = op := rfl
@[simp] theorem State.raise_errPayload (s : State) (e : ErrCode) (c : OrUnset Nat) (op : OrUnset Nibble) (p : OrUnset Nat) (n : Nat) :
    (s.raise e c op p n).errPayload = p := rfl
@[simp] theorem State.raise_errPhase (s : State) (e : ErrCode) (c : OrUnset Nat) (op : OrUnset Nibble) (p : OrUnset Nat) (n : Nat) :
    (s.raise e c op p n).errPhase = some (s.top, s.phase) := rfl
@[simp] theorem State.raise_faultReason (s : State) (e : ErrCode) (c : OrUnset Nat) (op : OrUnset Nibble) (p : OrUnset Nat) (n : Nat) :
    (s.raise e c op p n).faultReason = s.faultReason := rfl
@[simp] theorem State.raise_cramStore (s : State) (e : ErrCode) (c : OrUnset Nat) (op : OrUnset Nibble) (p : OrUnset Nat) (n : Nat) :
    (s.raise e c op p n).cramStore = s.cramStore := rfl
@[simp] theorem State.raise_bramStore (s : State) (e : ErrCode) (c : OrUnset Nat) (op : OrUnset Nibble) (p : OrUnset Nat) (n : Nat) :
    (s.raise e c op p n).bramStore = s.bramStore := rfl
@[simp] theorem State.raise_input (s : State) (e : ErrCode) (c : OrUnset Nat) (op : OrUnset Nibble) (p : OrUnset Nat) (n : Nat) :
    (s.raise e c op p n).input = s.input := rfl
@[simp] theorem State.raise_storeLimit (s : State) (e : ErrCode) (c : OrUnset Nat) (op : OrUnset Nibble) (p : OrUnset Nat) (n : Nat) :
    (s.raise e c op p n).storeLimit = s.storeLimit := rfl

@[simp] theorem State.modelFault_top (s : State) (r : FaultReason) :
    (s.modelFault r).top = .modelFault := rfl
@[simp] theorem State.modelFault_phase (s : State) (r : FaultReason) :
    (s.modelFault r).phase = s.phase := rfl
@[simp] theorem State.modelFault_streamOffset (s : State) (r : FaultReason) :
    (s.modelFault r).streamOffset = s.streamOffset + 1 := rfl
@[simp] theorem State.modelFault_syncBytes (s : State) (r : FaultReason) :
    (s.modelFault r).syncBytes = s.syncBytes := rfl
@[simp] theorem State.modelFault_window (s : State) (r : FaultReason) :
    (s.modelFault r).window = s.window := rfl
@[simp] theorem State.modelFault_bank (s : State) (r : FaultReason) :
    (s.modelFault r).bank = s.bank := rfl
@[simp] theorem State.modelFault_width (s : State) (r : FaultReason) :
    (s.modelFault r).width = s.width := rfl
@[simp] theorem State.modelFault_height (s : State) (r : FaultReason) :
    (s.modelFault r).height = s.height := rfl
@[simp] theorem State.modelFault_offset (s : State) (r : FaultReason) :
    (s.modelFault r).offset = s.offset := rfl
@[simp] theorem State.modelFault_crc (s : State) (r : FaultReason) :
    (s.modelFault r).crc = s.crc := rfl
@[simp] theorem State.modelFault_warmboot (s : State) (r : FaultReason) :
    (s.modelFault r).warmboot = s.warmboot := rfl
@[simp] theorem State.modelFault_nosleep (s : State) (r : FaultReason) :
    (s.modelFault r).nosleep = s.nosleep := rfl
@[simp] theorem State.modelFault_freq (s : State) (r : FaultReason) :
    (s.modelFault r).freq = s.freq := rfl
@[simp] theorem State.modelFault_cramExtW (s : State) (r : FaultReason) :
    (s.modelFault r).cramExtW = s.cramExtW := rfl
@[simp] theorem State.modelFault_cramExtH (s : State) (r : FaultReason) :
    (s.modelFault r).cramExtH = s.cramExtH := rfl
@[simp] theorem State.modelFault_bramExtW (s : State) (r : FaultReason) :
    (s.modelFault r).bramExtW = s.bramExtW := rfl
@[simp] theorem State.modelFault_bramExtH (s : State) (r : FaultReason) :
    (s.modelFault r).bramExtH = s.bramExtH := rfl
@[simp] theorem State.modelFault_cmdOp (s : State) (r : FaultReason) :
    (s.modelFault r).cmdOp = s.cmdOp := rfl
@[simp] theorem State.modelFault_cmdLen (s : State) (r : FaultReason) :
    (s.modelFault r).cmdLen = s.cmdLen := rfl
@[simp] theorem State.modelFault_payRemain (s : State) (r : FaultReason) :
    (s.modelFault r).payRemain = s.payRemain := rfl
@[simp] theorem State.modelFault_payload (s : State) (r : FaultReason) :
    (s.modelFault r).payload = s.payload := rfl
@[simp] theorem State.modelFault_cmdOffset (s : State) (r : FaultReason) :
    (s.modelFault r).cmdOffset = s.cmdOffset := rfl
@[simp] theorem State.modelFault_blkStore (s : State) (r : FaultReason) :
    (s.modelFault r).blkStore = s.blkStore := rfl
@[simp] theorem State.modelFault_blkBank (s : State) (r : FaultReason) :
    (s.modelFault r).blkBank = s.blkBank := rfl
@[simp] theorem State.modelFault_blkW (s : State) (r : FaultReason) :
    (s.modelFault r).blkW = s.blkW := rfl
@[simp] theorem State.modelFault_blkH (s : State) (r : FaultReason) :
    (s.modelFault r).blkH = s.blkH := rfl
@[simp] theorem State.modelFault_blkOff (s : State) (r : FaultReason) :
    (s.modelFault r).blkOff = s.blkOff := rfl
@[simp] theorem State.modelFault_blkBytes (s : State) (r : FaultReason) :
    (s.modelFault r).blkBytes = s.blkBytes := rfl
@[simp] theorem State.modelFault_blkDone (s : State) (r : FaultReason) :
    (s.modelFault r).blkDone = s.blkDone := rfl
@[simp] theorem State.modelFault_trlDone (s : State) (r : FaultReason) :
    (s.modelFault r).trlDone = s.trlDone := rfl
@[simp] theorem State.modelFault_trlNonzero (s : State) (r : FaultReason) :
    (s.modelFault r).trlNonzero = s.trlNonzero := rfl
@[simp] theorem State.modelFault_trailerWarnings (s : State) (r : FaultReason) :
    (s.modelFault r).trailerWarnings = s.trailerWarnings := rfl
@[simp] theorem State.modelFault_errCode (s : State) (r : FaultReason) :
    (s.modelFault r).errCode = s.errCode := rfl
@[simp] theorem State.modelFault_errOffset (s : State) (r : FaultReason) :
    (s.modelFault r).errOffset = s.errOffset := rfl
@[simp] theorem State.modelFault_errCmdOffset (s : State) (r : FaultReason) :
    (s.modelFault r).errCmdOffset = s.errCmdOffset := rfl
@[simp] theorem State.modelFault_errOpcode (s : State) (r : FaultReason) :
    (s.modelFault r).errOpcode = s.errOpcode := rfl
@[simp] theorem State.modelFault_errPayload (s : State) (r : FaultReason) :
    (s.modelFault r).errPayload = s.errPayload := rfl
@[simp] theorem State.modelFault_errPhase (s : State) (r : FaultReason) :
    (s.modelFault r).errPhase = s.errPhase := rfl
@[simp] theorem State.modelFault_faultReason (s : State) (r : FaultReason) :
    (s.modelFault r).faultReason = r := rfl
@[simp] theorem State.modelFault_cramStore (s : State) (r : FaultReason) :
    (s.modelFault r).cramStore = s.cramStore := rfl
@[simp] theorem State.modelFault_bramStore (s : State) (r : FaultReason) :
    (s.modelFault r).bramStore = s.bramStore := rfl
@[simp] theorem State.modelFault_input (s : State) (r : FaultReason) :
    (s.modelFault r).input = s.input := rfl
@[simp] theorem State.modelFault_storeLimit (s : State) (r : FaultReason) :
    (s.modelFault r).storeLimit = s.storeLimit := rfl

@[simp] theorem State.endFraming_top (s : State) (op len : Nibble) (p : Nat) :
    (s.endFraming op len p).top = s.top := rfl
@[simp] theorem State.endFraming_phase (s : State) (op len : Nibble) (p : Nat) :
    (s.endFraming op len p).phase = s.phase := rfl
@[simp] theorem State.endFraming_streamOffset (s : State) (op len : Nibble) (p : Nat) :
    (s.endFraming op len p).streamOffset = s.streamOffset + 1 := rfl
@[simp] theorem State.endFraming_syncBytes (s : State) (op len : Nibble) (p : Nat) :
    (s.endFraming op len p).syncBytes = s.syncBytes := rfl
@[simp] theorem State.endFraming_window (s : State) (op len : Nibble) (p : Nat) :
    (s.endFraming op len p).window = s.window := rfl
@[simp] theorem State.endFraming_bank (s : State) (op len : Nibble) (p : Nat) :
    (s.endFraming op len p).bank = s.bank := rfl
@[simp] theorem State.endFraming_width (s : State) (op len : Nibble) (p : Nat) :
    (s.endFraming op len p).width = s.width := rfl
@[simp] theorem State.endFraming_height (s : State) (op len : Nibble) (p : Nat) :
    (s.endFraming op len p).height = s.height := rfl
@[simp] theorem State.endFraming_offset (s : State) (op len : Nibble) (p : Nat) :
    (s.endFraming op len p).offset = s.offset := rfl
@[simp] theorem State.endFraming_crc (s : State) (op len : Nibble) (p : Nat) :
    (s.endFraming op len p).crc = s.crc := rfl
@[simp] theorem State.endFraming_warmboot (s : State) (op len : Nibble) (p : Nat) :
    (s.endFraming op len p).warmboot = s.warmboot := rfl
@[simp] theorem State.endFraming_nosleep (s : State) (op len : Nibble) (p : Nat) :
    (s.endFraming op len p).nosleep = s.nosleep := rfl
@[simp] theorem State.endFraming_freq (s : State) (op len : Nibble) (p : Nat) :
    (s.endFraming op len p).freq = s.freq := rfl
@[simp] theorem State.endFraming_cramExtW (s : State) (op len : Nibble) (p : Nat) :
    (s.endFraming op len p).cramExtW = s.cramExtW := rfl
@[simp] theorem State.endFraming_cramExtH (s : State) (op len : Nibble) (p : Nat) :
    (s.endFraming op len p).cramExtH = s.cramExtH := rfl
@[simp] theorem State.endFraming_bramExtW (s : State) (op len : Nibble) (p : Nat) :
    (s.endFraming op len p).bramExtW = s.bramExtW := rfl
@[simp] theorem State.endFraming_bramExtH (s : State) (op len : Nibble) (p : Nat) :
    (s.endFraming op len p).bramExtH = s.bramExtH := rfl
@[simp] theorem State.endFraming_cmdOp (s : State) (op len : Nibble) (p : Nat) :
    (s.endFraming op len p).cmdOp = (if s.phase = .cmd then op else s.cmdOp) := rfl
@[simp] theorem State.endFraming_cmdLen (s : State) (op len : Nibble) (p : Nat) :
    (s.endFraming op len p).cmdLen = (if s.phase = .cmd then len else s.cmdLen) := rfl
@[simp] theorem State.endFraming_payRemain (s : State) (op len : Nibble) (p : Nat) :
    (s.endFraming op len p).payRemain = (if s.phase = .cmd then s.payRemain else s.payRemain - 1) := rfl
@[simp] theorem State.endFraming_payload (s : State) (op len : Nibble) (p : Nat) :
    (s.endFraming op len p).payload = p := rfl
@[simp] theorem State.endFraming_cmdOffset (s : State) (op len : Nibble) (p : Nat) :
    (s.endFraming op len p).cmdOffset = s.commandIndex := rfl
@[simp] theorem State.endFraming_blkStore (s : State) (op len : Nibble) (p : Nat) :
    (s.endFraming op len p).blkStore = s.blkStore := rfl
@[simp] theorem State.endFraming_blkBank (s : State) (op len : Nibble) (p : Nat) :
    (s.endFraming op len p).blkBank = s.blkBank := rfl
@[simp] theorem State.endFraming_blkW (s : State) (op len : Nibble) (p : Nat) :
    (s.endFraming op len p).blkW = s.blkW := rfl
@[simp] theorem State.endFraming_blkH (s : State) (op len : Nibble) (p : Nat) :
    (s.endFraming op len p).blkH = s.blkH := rfl
@[simp] theorem State.endFraming_blkOff (s : State) (op len : Nibble) (p : Nat) :
    (s.endFraming op len p).blkOff = s.blkOff := rfl
@[simp] theorem State.endFraming_blkBytes (s : State) (op len : Nibble) (p : Nat) :
    (s.endFraming op len p).blkBytes = s.blkBytes := rfl
@[simp] theorem State.endFraming_blkDone (s : State) (op len : Nibble) (p : Nat) :
    (s.endFraming op len p).blkDone = s.blkDone := rfl
@[simp] theorem State.endFraming_trlDone (s : State) (op len : Nibble) (p : Nat) :
    (s.endFraming op len p).trlDone = s.trlDone := rfl
@[simp] theorem State.endFraming_trlNonzero (s : State) (op len : Nibble) (p : Nat) :
    (s.endFraming op len p).trlNonzero = s.trlNonzero := rfl
@[simp] theorem State.endFraming_trailerWarnings (s : State) (op len : Nibble) (p : Nat) :
    (s.endFraming op len p).trailerWarnings = s.trailerWarnings := rfl
@[simp] theorem State.endFraming_errCode (s : State) (op len : Nibble) (p : Nat) :
    (s.endFraming op len p).errCode = s.errCode := rfl
@[simp] theorem State.endFraming_errOffset (s : State) (op len : Nibble) (p : Nat) :
    (s.endFraming op len p).errOffset = s.errOffset := rfl
@[simp] theorem State.endFraming_errCmdOffset (s : State) (op len : Nibble) (p : Nat) :
    (s.endFraming op len p).errCmdOffset = s.errCmdOffset := rfl
@[simp] theorem State.endFraming_errOpcode (s : State) (op len : Nibble) (p : Nat) :
    (s.endFraming op len p).errOpcode = s.errOpcode := rfl
@[simp] theorem State.endFraming_errPayload (s : State) (op len : Nibble) (p : Nat) :
    (s.endFraming op len p).errPayload = s.errPayload := rfl
@[simp] theorem State.endFraming_errPhase (s : State) (op len : Nibble) (p : Nat) :
    (s.endFraming op len p).errPhase = s.errPhase := rfl
@[simp] theorem State.endFraming_faultReason (s : State) (op len : Nibble) (p : Nat) :
    (s.endFraming op len p).faultReason = s.faultReason := rfl
@[simp] theorem State.endFraming_cramStore (s : State) (op len : Nibble) (p : Nat) :
    (s.endFraming op len p).cramStore = s.cramStore := rfl
@[simp] theorem State.endFraming_bramStore (s : State) (op len : Nibble) (p : Nat) :
    (s.endFraming op len p).bramStore = s.bramStore := rfl
@[simp] theorem State.endFraming_input (s : State) (op len : Nibble) (p : Nat) :
    (s.endFraming op len p).input = s.input := rfl
@[simp] theorem State.endFraming_storeLimit (s : State) (op len : Nibble) (p : Nat) :
    (s.endFraming op len p).storeLimit = s.storeLimit := rfl

@[simp] theorem State.commandDone_top (s : State) (op len : Nibble) (p : Nat) :
    (s.commandDone op len p).top = s.top := rfl
@[simp] theorem State.commandDone_phase (s : State) (op len : Nibble) (p : Nat) :
    (s.commandDone op len p).phase = .cmd := rfl
@[simp] theorem State.commandDone_streamOffset (s : State) (op len : Nibble) (p : Nat) :
    (s.commandDone op len p).streamOffset = s.streamOffset + 1 := rfl
@[simp] theorem State.commandDone_syncBytes (s : State) (op len : Nibble) (p : Nat) :
    (s.commandDone op len p).syncBytes = s.syncBytes := rfl
@[simp] theorem State.commandDone_window (s : State) (op len : Nibble) (p : Nat) :
    (s.commandDone op len p).window = s.window := rfl
@[simp] theorem State.commandDone_bank (s : State) (op len : Nibble) (p : Nat) :
    (s.commandDone op len p).bank = s.bank := rfl
@[simp] theorem State.commandDone_width (s : State) (op len : Nibble) (p : Nat) :
    (s.commandDone op len p).width = s.width := rfl
@[simp] theorem State.commandDone_height (s : State) (op len : Nibble) (p : Nat) :
    (s.commandDone op len p).height = s.height := rfl
@[simp] theorem State.commandDone_offset (s : State) (op len : Nibble) (p : Nat) :
    (s.commandDone op len p).offset = s.offset := rfl
@[simp] theorem State.commandDone_crc (s : State) (op len : Nibble) (p : Nat) :
    (s.commandDone op len p).crc = s.crc := rfl
@[simp] theorem State.commandDone_warmboot (s : State) (op len : Nibble) (p : Nat) :
    (s.commandDone op len p).warmboot = s.warmboot := rfl
@[simp] theorem State.commandDone_nosleep (s : State) (op len : Nibble) (p : Nat) :
    (s.commandDone op len p).nosleep = s.nosleep := rfl
@[simp] theorem State.commandDone_freq (s : State) (op len : Nibble) (p : Nat) :
    (s.commandDone op len p).freq = s.freq := rfl
@[simp] theorem State.commandDone_cramExtW (s : State) (op len : Nibble) (p : Nat) :
    (s.commandDone op len p).cramExtW = s.cramExtW := rfl
@[simp] theorem State.commandDone_cramExtH (s : State) (op len : Nibble) (p : Nat) :
    (s.commandDone op len p).cramExtH = s.cramExtH := rfl
@[simp] theorem State.commandDone_bramExtW (s : State) (op len : Nibble) (p : Nat) :
    (s.commandDone op len p).bramExtW = s.bramExtW := rfl
@[simp] theorem State.commandDone_bramExtH (s : State) (op len : Nibble) (p : Nat) :
    (s.commandDone op len p).bramExtH = s.bramExtH := rfl
@[simp] theorem State.commandDone_cmdOp (s : State) (op len : Nibble) (p : Nat) :
    (s.commandDone op len p).cmdOp = (if s.phase = .cmd then op else s.cmdOp) := rfl
@[simp] theorem State.commandDone_cmdLen (s : State) (op len : Nibble) (p : Nat) :
    (s.commandDone op len p).cmdLen = (if s.phase = .cmd then len else s.cmdLen) := rfl
@[simp] theorem State.commandDone_payRemain (s : State) (op len : Nibble) (p : Nat) :
    (s.commandDone op len p).payRemain = (if s.phase = .cmd then s.payRemain else s.payRemain - 1) := rfl
@[simp] theorem State.commandDone_payload (s : State) (op len : Nibble) (p : Nat) :
    (s.commandDone op len p).payload = p := rfl
@[simp] theorem State.commandDone_cmdOffset (s : State) (op len : Nibble) (p : Nat) :
    (s.commandDone op len p).cmdOffset = s.commandIndex := rfl
@[simp] theorem State.commandDone_blkStore (s : State) (op len : Nibble) (p : Nat) :
    (s.commandDone op len p).blkStore = s.blkStore := rfl
@[simp] theorem State.commandDone_blkBank (s : State) (op len : Nibble) (p : Nat) :
    (s.commandDone op len p).blkBank = s.blkBank := rfl
@[simp] theorem State.commandDone_blkW (s : State) (op len : Nibble) (p : Nat) :
    (s.commandDone op len p).blkW = s.blkW := rfl
@[simp] theorem State.commandDone_blkH (s : State) (op len : Nibble) (p : Nat) :
    (s.commandDone op len p).blkH = s.blkH := rfl
@[simp] theorem State.commandDone_blkOff (s : State) (op len : Nibble) (p : Nat) :
    (s.commandDone op len p).blkOff = s.blkOff := rfl
@[simp] theorem State.commandDone_blkBytes (s : State) (op len : Nibble) (p : Nat) :
    (s.commandDone op len p).blkBytes = s.blkBytes := rfl
@[simp] theorem State.commandDone_blkDone (s : State) (op len : Nibble) (p : Nat) :
    (s.commandDone op len p).blkDone = s.blkDone := rfl
@[simp] theorem State.commandDone_trlDone (s : State) (op len : Nibble) (p : Nat) :
    (s.commandDone op len p).trlDone = s.trlDone := rfl
@[simp] theorem State.commandDone_trlNonzero (s : State) (op len : Nibble) (p : Nat) :
    (s.commandDone op len p).trlNonzero = s.trlNonzero := rfl
@[simp] theorem State.commandDone_trailerWarnings (s : State) (op len : Nibble) (p : Nat) :
    (s.commandDone op len p).trailerWarnings = s.trailerWarnings := rfl
@[simp] theorem State.commandDone_errCode (s : State) (op len : Nibble) (p : Nat) :
    (s.commandDone op len p).errCode = s.errCode := rfl
@[simp] theorem State.commandDone_errOffset (s : State) (op len : Nibble) (p : Nat) :
    (s.commandDone op len p).errOffset = s.errOffset := rfl
@[simp] theorem State.commandDone_errCmdOffset (s : State) (op len : Nibble) (p : Nat) :
    (s.commandDone op len p).errCmdOffset = s.errCmdOffset := rfl
@[simp] theorem State.commandDone_errOpcode (s : State) (op len : Nibble) (p : Nat) :
    (s.commandDone op len p).errOpcode = s.errOpcode := rfl
@[simp] theorem State.commandDone_errPayload (s : State) (op len : Nibble) (p : Nat) :
    (s.commandDone op len p).errPayload = s.errPayload := rfl
@[simp] theorem State.commandDone_errPhase (s : State) (op len : Nibble) (p : Nat) :
    (s.commandDone op len p).errPhase = s.errPhase := rfl
@[simp] theorem State.commandDone_faultReason (s : State) (op len : Nibble) (p : Nat) :
    (s.commandDone op len p).faultReason = s.faultReason := rfl
@[simp] theorem State.commandDone_cramStore (s : State) (op len : Nibble) (p : Nat) :
    (s.commandDone op len p).cramStore = s.cramStore := rfl
@[simp] theorem State.commandDone_bramStore (s : State) (op len : Nibble) (p : Nat) :
    (s.commandDone op len p).bramStore = s.bramStore := rfl
@[simp] theorem State.commandDone_input (s : State) (op len : Nibble) (p : Nat) :
    (s.commandDone op len p).input = s.input := rfl
@[simp] theorem State.commandDone_storeLimit (s : State) (op len : Nibble) (p : Nat) :
    (s.commandDone op len p).storeLimit = s.storeLimit := rfl

@[simp] theorem State.shiftSync_top (s : State) (b : Byte) :
    (s.shiftSync b).top = s.top := rfl
@[simp] theorem State.shiftSync_phase (s : State) (b : Byte) :
    (s.shiftSync b).phase = s.phase := rfl
@[simp] theorem State.shiftSync_streamOffset (s : State) (b : Byte) :
    (s.shiftSync b).streamOffset = s.streamOffset + 1 := rfl
@[simp] theorem State.shiftSync_syncBytes (s : State) (b : Byte) :
    (s.shiftSync b).syncBytes = s.syncBytes := rfl
@[simp] theorem State.shiftSync_window (s : State) (b : Byte) :
    (s.shiftSync b).window = shiftWindow s.window b := rfl
@[simp] theorem State.shiftSync_bank (s : State) (b : Byte) :
    (s.shiftSync b).bank = s.bank := rfl
@[simp] theorem State.shiftSync_width (s : State) (b : Byte) :
    (s.shiftSync b).width = s.width := rfl
@[simp] theorem State.shiftSync_height (s : State) (b : Byte) :
    (s.shiftSync b).height = s.height := rfl
@[simp] theorem State.shiftSync_offset (s : State) (b : Byte) :
    (s.shiftSync b).offset = s.offset := rfl
@[simp] theorem State.shiftSync_crc (s : State) (b : Byte) :
    (s.shiftSync b).crc = s.crc := rfl
@[simp] theorem State.shiftSync_warmboot (s : State) (b : Byte) :
    (s.shiftSync b).warmboot = s.warmboot := rfl
@[simp] theorem State.shiftSync_nosleep (s : State) (b : Byte) :
    (s.shiftSync b).nosleep = s.nosleep := rfl
@[simp] theorem State.shiftSync_freq (s : State) (b : Byte) :
    (s.shiftSync b).freq = s.freq := rfl
@[simp] theorem State.shiftSync_cramExtW (s : State) (b : Byte) :
    (s.shiftSync b).cramExtW = s.cramExtW := rfl
@[simp] theorem State.shiftSync_cramExtH (s : State) (b : Byte) :
    (s.shiftSync b).cramExtH = s.cramExtH := rfl
@[simp] theorem State.shiftSync_bramExtW (s : State) (b : Byte) :
    (s.shiftSync b).bramExtW = s.bramExtW := rfl
@[simp] theorem State.shiftSync_bramExtH (s : State) (b : Byte) :
    (s.shiftSync b).bramExtH = s.bramExtH := rfl
@[simp] theorem State.shiftSync_cmdOp (s : State) (b : Byte) :
    (s.shiftSync b).cmdOp = s.cmdOp := rfl
@[simp] theorem State.shiftSync_cmdLen (s : State) (b : Byte) :
    (s.shiftSync b).cmdLen = s.cmdLen := rfl
@[simp] theorem State.shiftSync_payRemain (s : State) (b : Byte) :
    (s.shiftSync b).payRemain = s.payRemain := rfl
@[simp] theorem State.shiftSync_payload (s : State) (b : Byte) :
    (s.shiftSync b).payload = s.payload := rfl
@[simp] theorem State.shiftSync_cmdOffset (s : State) (b : Byte) :
    (s.shiftSync b).cmdOffset = s.cmdOffset := rfl
@[simp] theorem State.shiftSync_blkStore (s : State) (b : Byte) :
    (s.shiftSync b).blkStore = s.blkStore := rfl
@[simp] theorem State.shiftSync_blkBank (s : State) (b : Byte) :
    (s.shiftSync b).blkBank = s.blkBank := rfl
@[simp] theorem State.shiftSync_blkW (s : State) (b : Byte) :
    (s.shiftSync b).blkW = s.blkW := rfl
@[simp] theorem State.shiftSync_blkH (s : State) (b : Byte) :
    (s.shiftSync b).blkH = s.blkH := rfl
@[simp] theorem State.shiftSync_blkOff (s : State) (b : Byte) :
    (s.shiftSync b).blkOff = s.blkOff := rfl
@[simp] theorem State.shiftSync_blkBytes (s : State) (b : Byte) :
    (s.shiftSync b).blkBytes = s.blkBytes := rfl
@[simp] theorem State.shiftSync_blkDone (s : State) (b : Byte) :
    (s.shiftSync b).blkDone = s.blkDone := rfl
@[simp] theorem State.shiftSync_trlDone (s : State) (b : Byte) :
    (s.shiftSync b).trlDone = s.trlDone := rfl
@[simp] theorem State.shiftSync_trlNonzero (s : State) (b : Byte) :
    (s.shiftSync b).trlNonzero = s.trlNonzero := rfl
@[simp] theorem State.shiftSync_trailerWarnings (s : State) (b : Byte) :
    (s.shiftSync b).trailerWarnings = s.trailerWarnings := rfl
@[simp] theorem State.shiftSync_errCode (s : State) (b : Byte) :
    (s.shiftSync b).errCode = s.errCode := rfl
@[simp] theorem State.shiftSync_errOffset (s : State) (b : Byte) :
    (s.shiftSync b).errOffset = s.errOffset := rfl
@[simp] theorem State.shiftSync_errCmdOffset (s : State) (b : Byte) :
    (s.shiftSync b).errCmdOffset = s.errCmdOffset := rfl
@[simp] theorem State.shiftSync_errOpcode (s : State) (b : Byte) :
    (s.shiftSync b).errOpcode = s.errOpcode := rfl
@[simp] theorem State.shiftSync_errPayload (s : State) (b : Byte) :
    (s.shiftSync b).errPayload = s.errPayload := rfl
@[simp] theorem State.shiftSync_errPhase (s : State) (b : Byte) :
    (s.shiftSync b).errPhase = s.errPhase := rfl
@[simp] theorem State.shiftSync_faultReason (s : State) (b : Byte) :
    (s.shiftSync b).faultReason = s.faultReason := rfl
@[simp] theorem State.shiftSync_cramStore (s : State) (b : Byte) :
    (s.shiftSync b).cramStore = s.cramStore := rfl
@[simp] theorem State.shiftSync_bramStore (s : State) (b : Byte) :
    (s.shiftSync b).bramStore = s.bramStore := rfl
@[simp] theorem State.shiftSync_input (s : State) (b : Byte) :
    (s.shiftSync b).input = s.input := rfl
@[simp] theorem State.shiftSync_storeLimit (s : State) (b : Byte) :
    (s.shiftSync b).storeLimit = s.storeLimit := rfl

@[simp] theorem State.openCommand_top (s : State) (b : Byte) :
    (s.openCommand b).top = s.top := rfl
@[simp] theorem State.openCommand_phase (s : State) (b : Byte) :
    (s.openCommand b).phase = .payload := rfl
@[simp] theorem State.openCommand_streamOffset (s : State) (b : Byte) :
    (s.openCommand b).streamOffset = s.streamOffset + 1 := rfl
@[simp] theorem State.openCommand_syncBytes (s : State) (b : Byte) :
    (s.openCommand b).syncBytes = s.syncBytes := rfl
@[simp] theorem State.openCommand_window (s : State) (b : Byte) :
    (s.openCommand b).window = s.window := rfl
@[simp] theorem State.openCommand_bank (s : State) (b : Byte) :
    (s.openCommand b).bank = s.bank := rfl
@[simp] theorem State.openCommand_width (s : State) (b : Byte) :
    (s.openCommand b).width = s.width := rfl
@[simp] theorem State.openCommand_height (s : State) (b : Byte) :
    (s.openCommand b).height = s.height := rfl
@[simp] theorem State.openCommand_offset (s : State) (b : Byte) :
    (s.openCommand b).offset = s.offset := rfl
@[simp] theorem State.openCommand_crc (s : State) (b : Byte) :
    (s.openCommand b).crc = s.crc := rfl
@[simp] theorem State.openCommand_warmboot (s : State) (b : Byte) :
    (s.openCommand b).warmboot = s.warmboot := rfl
@[simp] theorem State.openCommand_nosleep (s : State) (b : Byte) :
    (s.openCommand b).nosleep = s.nosleep := rfl
@[simp] theorem State.openCommand_freq (s : State) (b : Byte) :
    (s.openCommand b).freq = s.freq := rfl
@[simp] theorem State.openCommand_cramExtW (s : State) (b : Byte) :
    (s.openCommand b).cramExtW = s.cramExtW := rfl
@[simp] theorem State.openCommand_cramExtH (s : State) (b : Byte) :
    (s.openCommand b).cramExtH = s.cramExtH := rfl
@[simp] theorem State.openCommand_bramExtW (s : State) (b : Byte) :
    (s.openCommand b).bramExtW = s.bramExtW := rfl
@[simp] theorem State.openCommand_bramExtH (s : State) (b : Byte) :
    (s.openCommand b).bramExtH = s.bramExtH := rfl
@[simp] theorem State.openCommand_cmdOp (s : State) (b : Byte) :
    (s.openCommand b).cmdOp = opField b := rfl
@[simp] theorem State.openCommand_cmdLen (s : State) (b : Byte) :
    (s.openCommand b).cmdLen = lenField b := rfl
@[simp] theorem State.openCommand_payRemain (s : State) (b : Byte) :
    (s.openCommand b).payRemain = (lenField b).toNat := rfl
@[simp] theorem State.openCommand_payload (s : State) (b : Byte) :
    (s.openCommand b).payload = 0 := rfl
@[simp] theorem State.openCommand_cmdOffset (s : State) (b : Byte) :
    (s.openCommand b).cmdOffset = some s.streamOffset := rfl
@[simp] theorem State.openCommand_blkStore (s : State) (b : Byte) :
    (s.openCommand b).blkStore = s.blkStore := rfl
@[simp] theorem State.openCommand_blkBank (s : State) (b : Byte) :
    (s.openCommand b).blkBank = s.blkBank := rfl
@[simp] theorem State.openCommand_blkW (s : State) (b : Byte) :
    (s.openCommand b).blkW = s.blkW := rfl
@[simp] theorem State.openCommand_blkH (s : State) (b : Byte) :
    (s.openCommand b).blkH = s.blkH := rfl
@[simp] theorem State.openCommand_blkOff (s : State) (b : Byte) :
    (s.openCommand b).blkOff = s.blkOff := rfl
@[simp] theorem State.openCommand_blkBytes (s : State) (b : Byte) :
    (s.openCommand b).blkBytes = s.blkBytes := rfl
@[simp] theorem State.openCommand_blkDone (s : State) (b : Byte) :
    (s.openCommand b).blkDone = s.blkDone := rfl
@[simp] theorem State.openCommand_trlDone (s : State) (b : Byte) :
    (s.openCommand b).trlDone = s.trlDone := rfl
@[simp] theorem State.openCommand_trlNonzero (s : State) (b : Byte) :
    (s.openCommand b).trlNonzero = s.trlNonzero := rfl
@[simp] theorem State.openCommand_trailerWarnings (s : State) (b : Byte) :
    (s.openCommand b).trailerWarnings = s.trailerWarnings := rfl
@[simp] theorem State.openCommand_errCode (s : State) (b : Byte) :
    (s.openCommand b).errCode = s.errCode := rfl
@[simp] theorem State.openCommand_errOffset (s : State) (b : Byte) :
    (s.openCommand b).errOffset = s.errOffset := rfl
@[simp] theorem State.openCommand_errCmdOffset (s : State) (b : Byte) :
    (s.openCommand b).errCmdOffset = s.errCmdOffset := rfl
@[simp] theorem State.openCommand_errOpcode (s : State) (b : Byte) :
    (s.openCommand b).errOpcode = s.errOpcode := rfl
@[simp] theorem State.openCommand_errPayload (s : State) (b : Byte) :
    (s.openCommand b).errPayload = s.errPayload := rfl
@[simp] theorem State.openCommand_errPhase (s : State) (b : Byte) :
    (s.openCommand b).errPhase = s.errPhase := rfl
@[simp] theorem State.openCommand_faultReason (s : State) (b : Byte) :
    (s.openCommand b).faultReason = s.faultReason := rfl
@[simp] theorem State.openCommand_cramStore (s : State) (b : Byte) :
    (s.openCommand b).cramStore = s.cramStore := rfl
@[simp] theorem State.openCommand_bramStore (s : State) (b : Byte) :
    (s.openCommand b).bramStore = s.bramStore := rfl
@[simp] theorem State.openCommand_input (s : State) (b : Byte) :
    (s.openCommand b).input = s.input := rfl
@[simp] theorem State.openCommand_storeLimit (s : State) (b : Byte) :
    (s.openCommand b).storeLimit = s.storeLimit := rfl

@[simp] theorem State.shiftPayload_top (s : State) (b : Byte) :
    (s.shiftPayload b).top = s.top := rfl
@[simp] theorem State.shiftPayload_phase (s : State) (b : Byte) :
    (s.shiftPayload b).phase = s.phase := rfl
@[simp] theorem State.shiftPayload_streamOffset (s : State) (b : Byte) :
    (s.shiftPayload b).streamOffset = s.streamOffset + 1 := rfl
@[simp] theorem State.shiftPayload_syncBytes (s : State) (b : Byte) :
    (s.shiftPayload b).syncBytes = s.syncBytes := rfl
@[simp] theorem State.shiftPayload_window (s : State) (b : Byte) :
    (s.shiftPayload b).window = s.window := rfl
@[simp] theorem State.shiftPayload_bank (s : State) (b : Byte) :
    (s.shiftPayload b).bank = s.bank := rfl
@[simp] theorem State.shiftPayload_width (s : State) (b : Byte) :
    (s.shiftPayload b).width = s.width := rfl
@[simp] theorem State.shiftPayload_height (s : State) (b : Byte) :
    (s.shiftPayload b).height = s.height := rfl
@[simp] theorem State.shiftPayload_offset (s : State) (b : Byte) :
    (s.shiftPayload b).offset = s.offset := rfl
@[simp] theorem State.shiftPayload_crc (s : State) (b : Byte) :
    (s.shiftPayload b).crc = s.crc := rfl
@[simp] theorem State.shiftPayload_warmboot (s : State) (b : Byte) :
    (s.shiftPayload b).warmboot = s.warmboot := rfl
@[simp] theorem State.shiftPayload_nosleep (s : State) (b : Byte) :
    (s.shiftPayload b).nosleep = s.nosleep := rfl
@[simp] theorem State.shiftPayload_freq (s : State) (b : Byte) :
    (s.shiftPayload b).freq = s.freq := rfl
@[simp] theorem State.shiftPayload_cramExtW (s : State) (b : Byte) :
    (s.shiftPayload b).cramExtW = s.cramExtW := rfl
@[simp] theorem State.shiftPayload_cramExtH (s : State) (b : Byte) :
    (s.shiftPayload b).cramExtH = s.cramExtH := rfl
@[simp] theorem State.shiftPayload_bramExtW (s : State) (b : Byte) :
    (s.shiftPayload b).bramExtW = s.bramExtW := rfl
@[simp] theorem State.shiftPayload_bramExtH (s : State) (b : Byte) :
    (s.shiftPayload b).bramExtH = s.bramExtH := rfl
@[simp] theorem State.shiftPayload_cmdOp (s : State) (b : Byte) :
    (s.shiftPayload b).cmdOp = s.cmdOp := rfl
@[simp] theorem State.shiftPayload_cmdLen (s : State) (b : Byte) :
    (s.shiftPayload b).cmdLen = s.cmdLen := rfl
@[simp] theorem State.shiftPayload_payRemain (s : State) (b : Byte) :
    (s.shiftPayload b).payRemain = s.payRemain - 1 := rfl
@[simp] theorem State.shiftPayload_payload (s : State) (b : Byte) :
    (s.shiftPayload b).payload = shiftIn s.payload b := rfl
@[simp] theorem State.shiftPayload_cmdOffset (s : State) (b : Byte) :
    (s.shiftPayload b).cmdOffset = s.cmdOffset := rfl
@[simp] theorem State.shiftPayload_blkStore (s : State) (b : Byte) :
    (s.shiftPayload b).blkStore = s.blkStore := rfl
@[simp] theorem State.shiftPayload_blkBank (s : State) (b : Byte) :
    (s.shiftPayload b).blkBank = s.blkBank := rfl
@[simp] theorem State.shiftPayload_blkW (s : State) (b : Byte) :
    (s.shiftPayload b).blkW = s.blkW := rfl
@[simp] theorem State.shiftPayload_blkH (s : State) (b : Byte) :
    (s.shiftPayload b).blkH = s.blkH := rfl
@[simp] theorem State.shiftPayload_blkOff (s : State) (b : Byte) :
    (s.shiftPayload b).blkOff = s.blkOff := rfl
@[simp] theorem State.shiftPayload_blkBytes (s : State) (b : Byte) :
    (s.shiftPayload b).blkBytes = s.blkBytes := rfl
@[simp] theorem State.shiftPayload_blkDone (s : State) (b : Byte) :
    (s.shiftPayload b).blkDone = s.blkDone := rfl
@[simp] theorem State.shiftPayload_trlDone (s : State) (b : Byte) :
    (s.shiftPayload b).trlDone = s.trlDone := rfl
@[simp] theorem State.shiftPayload_trlNonzero (s : State) (b : Byte) :
    (s.shiftPayload b).trlNonzero = s.trlNonzero := rfl
@[simp] theorem State.shiftPayload_trailerWarnings (s : State) (b : Byte) :
    (s.shiftPayload b).trailerWarnings = s.trailerWarnings := rfl
@[simp] theorem State.shiftPayload_errCode (s : State) (b : Byte) :
    (s.shiftPayload b).errCode = s.errCode := rfl
@[simp] theorem State.shiftPayload_errOffset (s : State) (b : Byte) :
    (s.shiftPayload b).errOffset = s.errOffset := rfl
@[simp] theorem State.shiftPayload_errCmdOffset (s : State) (b : Byte) :
    (s.shiftPayload b).errCmdOffset = s.errCmdOffset := rfl
@[simp] theorem State.shiftPayload_errOpcode (s : State) (b : Byte) :
    (s.shiftPayload b).errOpcode = s.errOpcode := rfl
@[simp] theorem State.shiftPayload_errPayload (s : State) (b : Byte) :
    (s.shiftPayload b).errPayload = s.errPayload := rfl
@[simp] theorem State.shiftPayload_errPhase (s : State) (b : Byte) :
    (s.shiftPayload b).errPhase = s.errPhase := rfl
@[simp] theorem State.shiftPayload_faultReason (s : State) (b : Byte) :
    (s.shiftPayload b).faultReason = s.faultReason := rfl
@[simp] theorem State.shiftPayload_cramStore (s : State) (b : Byte) :
    (s.shiftPayload b).cramStore = s.cramStore := rfl
@[simp] theorem State.shiftPayload_bramStore (s : State) (b : Byte) :
    (s.shiftPayload b).bramStore = s.bramStore := rfl
@[simp] theorem State.shiftPayload_input (s : State) (b : Byte) :
    (s.shiftPayload b).input = s.input := rfl
@[simp] theorem State.shiftPayload_storeLimit (s : State) (b : Byte) :
    (s.shiftPayload b).storeLimit = s.storeLimit := rfl

@[simp] theorem State.setStore_top (s : State) (st : StoreId) (m : Memory) :
    (s.setStore st m).top = s.top := by cases st <;> rfl
@[simp] theorem State.setStore_phase (s : State) (st : StoreId) (m : Memory) :
    (s.setStore st m).phase = s.phase := by cases st <;> rfl
@[simp] theorem State.setStore_streamOffset (s : State) (st : StoreId) (m : Memory) :
    (s.setStore st m).streamOffset = s.streamOffset := by cases st <;> rfl
@[simp] theorem State.setStore_syncBytes (s : State) (st : StoreId) (m : Memory) :
    (s.setStore st m).syncBytes = s.syncBytes := by cases st <;> rfl
@[simp] theorem State.setStore_window (s : State) (st : StoreId) (m : Memory) :
    (s.setStore st m).window = s.window := by cases st <;> rfl
@[simp] theorem State.setStore_bank (s : State) (st : StoreId) (m : Memory) :
    (s.setStore st m).bank = s.bank := by cases st <;> rfl
@[simp] theorem State.setStore_width (s : State) (st : StoreId) (m : Memory) :
    (s.setStore st m).width = s.width := by cases st <;> rfl
@[simp] theorem State.setStore_height (s : State) (st : StoreId) (m : Memory) :
    (s.setStore st m).height = s.height := by cases st <;> rfl
@[simp] theorem State.setStore_offset (s : State) (st : StoreId) (m : Memory) :
    (s.setStore st m).offset = s.offset := by cases st <;> rfl
@[simp] theorem State.setStore_crc (s : State) (st : StoreId) (m : Memory) :
    (s.setStore st m).crc = s.crc := by cases st <;> rfl
@[simp] theorem State.setStore_warmboot (s : State) (st : StoreId) (m : Memory) :
    (s.setStore st m).warmboot = s.warmboot := by cases st <;> rfl
@[simp] theorem State.setStore_nosleep (s : State) (st : StoreId) (m : Memory) :
    (s.setStore st m).nosleep = s.nosleep := by cases st <;> rfl
@[simp] theorem State.setStore_freq (s : State) (st : StoreId) (m : Memory) :
    (s.setStore st m).freq = s.freq := by cases st <;> rfl
@[simp] theorem State.setStore_cramExtW (s : State) (st : StoreId) (m : Memory) :
    (s.setStore st m).cramExtW = s.cramExtW := by cases st <;> rfl
@[simp] theorem State.setStore_cramExtH (s : State) (st : StoreId) (m : Memory) :
    (s.setStore st m).cramExtH = s.cramExtH := by cases st <;> rfl
@[simp] theorem State.setStore_bramExtW (s : State) (st : StoreId) (m : Memory) :
    (s.setStore st m).bramExtW = s.bramExtW := by cases st <;> rfl
@[simp] theorem State.setStore_bramExtH (s : State) (st : StoreId) (m : Memory) :
    (s.setStore st m).bramExtH = s.bramExtH := by cases st <;> rfl
@[simp] theorem State.setStore_cmdOp (s : State) (st : StoreId) (m : Memory) :
    (s.setStore st m).cmdOp = s.cmdOp := by cases st <;> rfl
@[simp] theorem State.setStore_cmdLen (s : State) (st : StoreId) (m : Memory) :
    (s.setStore st m).cmdLen = s.cmdLen := by cases st <;> rfl
@[simp] theorem State.setStore_payRemain (s : State) (st : StoreId) (m : Memory) :
    (s.setStore st m).payRemain = s.payRemain := by cases st <;> rfl
@[simp] theorem State.setStore_payload (s : State) (st : StoreId) (m : Memory) :
    (s.setStore st m).payload = s.payload := by cases st <;> rfl
@[simp] theorem State.setStore_cmdOffset (s : State) (st : StoreId) (m : Memory) :
    (s.setStore st m).cmdOffset = s.cmdOffset := by cases st <;> rfl
@[simp] theorem State.setStore_blkStore (s : State) (st : StoreId) (m : Memory) :
    (s.setStore st m).blkStore = s.blkStore := by cases st <;> rfl
@[simp] theorem State.setStore_blkBank (s : State) (st : StoreId) (m : Memory) :
    (s.setStore st m).blkBank = s.blkBank := by cases st <;> rfl
@[simp] theorem State.setStore_blkW (s : State) (st : StoreId) (m : Memory) :
    (s.setStore st m).blkW = s.blkW := by cases st <;> rfl
@[simp] theorem State.setStore_blkH (s : State) (st : StoreId) (m : Memory) :
    (s.setStore st m).blkH = s.blkH := by cases st <;> rfl
@[simp] theorem State.setStore_blkOff (s : State) (st : StoreId) (m : Memory) :
    (s.setStore st m).blkOff = s.blkOff := by cases st <;> rfl
@[simp] theorem State.setStore_blkBytes (s : State) (st : StoreId) (m : Memory) :
    (s.setStore st m).blkBytes = s.blkBytes := by cases st <;> rfl
@[simp] theorem State.setStore_blkDone (s : State) (st : StoreId) (m : Memory) :
    (s.setStore st m).blkDone = s.blkDone := by cases st <;> rfl
@[simp] theorem State.setStore_trlDone (s : State) (st : StoreId) (m : Memory) :
    (s.setStore st m).trlDone = s.trlDone := by cases st <;> rfl
@[simp] theorem State.setStore_trlNonzero (s : State) (st : StoreId) (m : Memory) :
    (s.setStore st m).trlNonzero = s.trlNonzero := by cases st <;> rfl
@[simp] theorem State.setStore_trailerWarnings (s : State) (st : StoreId) (m : Memory) :
    (s.setStore st m).trailerWarnings = s.trailerWarnings := by cases st <;> rfl
@[simp] theorem State.setStore_errCode (s : State) (st : StoreId) (m : Memory) :
    (s.setStore st m).errCode = s.errCode := by cases st <;> rfl
@[simp] theorem State.setStore_errOffset (s : State) (st : StoreId) (m : Memory) :
    (s.setStore st m).errOffset = s.errOffset := by cases st <;> rfl
@[simp] theorem State.setStore_errCmdOffset (s : State) (st : StoreId) (m : Memory) :
    (s.setStore st m).errCmdOffset = s.errCmdOffset := by cases st <;> rfl
@[simp] theorem State.setStore_errOpcode (s : State) (st : StoreId) (m : Memory) :
    (s.setStore st m).errOpcode = s.errOpcode := by cases st <;> rfl
@[simp] theorem State.setStore_errPayload (s : State) (st : StoreId) (m : Memory) :
    (s.setStore st m).errPayload = s.errPayload := by cases st <;> rfl
@[simp] theorem State.setStore_errPhase (s : State) (st : StoreId) (m : Memory) :
    (s.setStore st m).errPhase = s.errPhase := by cases st <;> rfl
@[simp] theorem State.setStore_faultReason (s : State) (st : StoreId) (m : Memory) :
    (s.setStore st m).faultReason = s.faultReason := by cases st <;> rfl
@[simp] theorem State.setStore_input (s : State) (st : StoreId) (m : Memory) :
    (s.setStore st m).input = s.input := by cases st <;> rfl
@[simp] theorem State.setStore_storeLimit (s : State) (st : StoreId) (m : Memory) :
    (s.setStore st m).storeLimit = s.storeLimit := by cases st <;> rfl

@[simp] theorem State.growExtent_top (s : State) (st : StoreId) (w h : Nat) :
    (s.growExtent st w h).top = s.top := by cases st <;> rfl
@[simp] theorem State.growExtent_phase (s : State) (st : StoreId) (w h : Nat) :
    (s.growExtent st w h).phase = s.phase := by cases st <;> rfl
@[simp] theorem State.growExtent_streamOffset (s : State) (st : StoreId) (w h : Nat) :
    (s.growExtent st w h).streamOffset = s.streamOffset := by cases st <;> rfl
@[simp] theorem State.growExtent_syncBytes (s : State) (st : StoreId) (w h : Nat) :
    (s.growExtent st w h).syncBytes = s.syncBytes := by cases st <;> rfl
@[simp] theorem State.growExtent_window (s : State) (st : StoreId) (w h : Nat) :
    (s.growExtent st w h).window = s.window := by cases st <;> rfl
@[simp] theorem State.growExtent_bank (s : State) (st : StoreId) (w h : Nat) :
    (s.growExtent st w h).bank = s.bank := by cases st <;> rfl
@[simp] theorem State.growExtent_width (s : State) (st : StoreId) (w h : Nat) :
    (s.growExtent st w h).width = s.width := by cases st <;> rfl
@[simp] theorem State.growExtent_height (s : State) (st : StoreId) (w h : Nat) :
    (s.growExtent st w h).height = s.height := by cases st <;> rfl
@[simp] theorem State.growExtent_offset (s : State) (st : StoreId) (w h : Nat) :
    (s.growExtent st w h).offset = s.offset := by cases st <;> rfl
@[simp] theorem State.growExtent_crc (s : State) (st : StoreId) (w h : Nat) :
    (s.growExtent st w h).crc = s.crc := by cases st <;> rfl
@[simp] theorem State.growExtent_warmboot (s : State) (st : StoreId) (w h : Nat) :
    (s.growExtent st w h).warmboot = s.warmboot := by cases st <;> rfl
@[simp] theorem State.growExtent_nosleep (s : State) (st : StoreId) (w h : Nat) :
    (s.growExtent st w h).nosleep = s.nosleep := by cases st <;> rfl
@[simp] theorem State.growExtent_freq (s : State) (st : StoreId) (w h : Nat) :
    (s.growExtent st w h).freq = s.freq := by cases st <;> rfl
@[simp] theorem State.growExtent_cmdOp (s : State) (st : StoreId) (w h : Nat) :
    (s.growExtent st w h).cmdOp = s.cmdOp := by cases st <;> rfl
@[simp] theorem State.growExtent_cmdLen (s : State) (st : StoreId) (w h : Nat) :
    (s.growExtent st w h).cmdLen = s.cmdLen := by cases st <;> rfl
@[simp] theorem State.growExtent_payRemain (s : State) (st : StoreId) (w h : Nat) :
    (s.growExtent st w h).payRemain = s.payRemain := by cases st <;> rfl
@[simp] theorem State.growExtent_payload (s : State) (st : StoreId) (w h : Nat) :
    (s.growExtent st w h).payload = s.payload := by cases st <;> rfl
@[simp] theorem State.growExtent_cmdOffset (s : State) (st : StoreId) (w h : Nat) :
    (s.growExtent st w h).cmdOffset = s.cmdOffset := by cases st <;> rfl
@[simp] theorem State.growExtent_blkStore (s : State) (st : StoreId) (w h : Nat) :
    (s.growExtent st w h).blkStore = s.blkStore := by cases st <;> rfl
@[simp] theorem State.growExtent_blkBank (s : State) (st : StoreId) (w h : Nat) :
    (s.growExtent st w h).blkBank = s.blkBank := by cases st <;> rfl
@[simp] theorem State.growExtent_blkW (s : State) (st : StoreId) (w h : Nat) :
    (s.growExtent st w h).blkW = s.blkW := by cases st <;> rfl
@[simp] theorem State.growExtent_blkH (s : State) (st : StoreId) (w h : Nat) :
    (s.growExtent st w h).blkH = s.blkH := by cases st <;> rfl
@[simp] theorem State.growExtent_blkOff (s : State) (st : StoreId) (w h : Nat) :
    (s.growExtent st w h).blkOff = s.blkOff := by cases st <;> rfl
@[simp] theorem State.growExtent_blkBytes (s : State) (st : StoreId) (w h : Nat) :
    (s.growExtent st w h).blkBytes = s.blkBytes := by cases st <;> rfl
@[simp] theorem State.growExtent_blkDone (s : State) (st : StoreId) (w h : Nat) :
    (s.growExtent st w h).blkDone = s.blkDone := by cases st <;> rfl
@[simp] theorem State.growExtent_trlDone (s : State) (st : StoreId) (w h : Nat) :
    (s.growExtent st w h).trlDone = s.trlDone := by cases st <;> rfl
@[simp] theorem State.growExtent_trlNonzero (s : State) (st : StoreId) (w h : Nat) :
    (s.growExtent st w h).trlNonzero = s.trlNonzero := by cases st <;> rfl
@[simp] theorem State.growExtent_trailerWarnings (s : State) (st : StoreId) (w h : Nat) :
    (s.growExtent st w h).trailerWarnings = s.trailerWarnings := by cases st <;> rfl
@[simp] theorem State.growExtent_errCode (s : State) (st : StoreId) (w h : Nat) :
    (s.growExtent st w h).errCode = s.errCode := by cases st <;> rfl
@[simp] theorem State.growExtent_errOffset (s : State) (st : StoreId) (w h : Nat) :
    (s.growExtent st w h).errOffset = s.errOffset := by cases st <;> rfl
@[simp] theorem State.growExtent_errCmdOffset (s : State) (st : StoreId) (w h : Nat) :
    (s.growExtent st w h).errCmdOffset = s.errCmdOffset := by cases st <;> rfl
@[simp] theorem State.growExtent_errOpcode (s : State) (st : StoreId) (w h : Nat) :
    (s.growExtent st w h).errOpcode = s.errOpcode := by cases st <;> rfl
@[simp] theorem State.growExtent_errPayload (s : State) (st : StoreId) (w h : Nat) :
    (s.growExtent st w h).errPayload = s.errPayload := by cases st <;> rfl
@[simp] theorem State.growExtent_errPhase (s : State) (st : StoreId) (w h : Nat) :
    (s.growExtent st w h).errPhase = s.errPhase := by cases st <;> rfl
@[simp] theorem State.growExtent_faultReason (s : State) (st : StoreId) (w h : Nat) :
    (s.growExtent st w h).faultReason = s.faultReason := by cases st <;> rfl
@[simp] theorem State.growExtent_cramStore (s : State) (st : StoreId) (w h : Nat) :
    (s.growExtent st w h).cramStore = s.cramStore := by cases st <;> rfl
@[simp] theorem State.growExtent_bramStore (s : State) (st : StoreId) (w h : Nat) :
    (s.growExtent st w h).bramStore = s.bramStore := by cases st <;> rfl
@[simp] theorem State.growExtent_input (s : State) (st : StoreId) (w h : Nat) :
    (s.growExtent st w h).input = s.input := by cases st <;> rfl
@[simp] theorem State.growExtent_storeLimit (s : State) (st : StoreId) (w h : Nat) :
    (s.growExtent st w h).storeLimit = s.storeLimit := by cases st <;> rfl

@[simp] theorem State.openBlock_top (s : State) (st : StoreId) (bank w h off : Nat) :
    (s.openBlock st bank w h off).top = s.top := by cases st <;> rfl
@[simp] theorem State.openBlock_phase (s : State) (st : StoreId) (bank w h off : Nat) :
    (s.openBlock st bank w h off).phase = (if w * h = 0 then .trailer else .data) := rfl
@[simp] theorem State.openBlock_streamOffset (s : State) (st : StoreId) (bank w h off : Nat) :
    (s.openBlock st bank w h off).streamOffset = s.streamOffset := by cases st <;> rfl
@[simp] theorem State.openBlock_syncBytes (s : State) (st : StoreId) (bank w h off : Nat) :
    (s.openBlock st bank w h off).syncBytes = s.syncBytes := by cases st <;> rfl
@[simp] theorem State.openBlock_window (s : State) (st : StoreId) (bank w h off : Nat) :
    (s.openBlock st bank w h off).window = s.window := by cases st <;> rfl
@[simp] theorem State.openBlock_bank (s : State) (st : StoreId) (bank w h off : Nat) :
    (s.openBlock st bank w h off).bank = s.bank := by cases st <;> rfl
@[simp] theorem State.openBlock_width (s : State) (st : StoreId) (bank w h off : Nat) :
    (s.openBlock st bank w h off).width = s.width := by cases st <;> rfl
@[simp] theorem State.openBlock_height (s : State) (st : StoreId) (bank w h off : Nat) :
    (s.openBlock st bank w h off).height = s.height := by cases st <;> rfl
@[simp] theorem State.openBlock_offset (s : State) (st : StoreId) (bank w h off : Nat) :
    (s.openBlock st bank w h off).offset = s.offset := by cases st <;> rfl
@[simp] theorem State.openBlock_crc (s : State) (st : StoreId) (bank w h off : Nat) :
    (s.openBlock st bank w h off).crc = s.crc := by cases st <;> rfl
@[simp] theorem State.openBlock_warmboot (s : State) (st : StoreId) (bank w h off : Nat) :
    (s.openBlock st bank w h off).warmboot = s.warmboot := by cases st <;> rfl
@[simp] theorem State.openBlock_nosleep (s : State) (st : StoreId) (bank w h off : Nat) :
    (s.openBlock st bank w h off).nosleep = s.nosleep := by cases st <;> rfl
@[simp] theorem State.openBlock_freq (s : State) (st : StoreId) (bank w h off : Nat) :
    (s.openBlock st bank w h off).freq = s.freq := by cases st <;> rfl
@[simp] theorem State.openBlock_cmdOp (s : State) (st : StoreId) (bank w h off : Nat) :
    (s.openBlock st bank w h off).cmdOp = s.cmdOp := by cases st <;> rfl
@[simp] theorem State.openBlock_cmdLen (s : State) (st : StoreId) (bank w h off : Nat) :
    (s.openBlock st bank w h off).cmdLen = s.cmdLen := by cases st <;> rfl
@[simp] theorem State.openBlock_payRemain (s : State) (st : StoreId) (bank w h off : Nat) :
    (s.openBlock st bank w h off).payRemain = s.payRemain := by cases st <;> rfl
@[simp] theorem State.openBlock_payload (s : State) (st : StoreId) (bank w h off : Nat) :
    (s.openBlock st bank w h off).payload = s.payload := by cases st <;> rfl
@[simp] theorem State.openBlock_cmdOffset (s : State) (st : StoreId) (bank w h off : Nat) :
    (s.openBlock st bank w h off).cmdOffset = s.cmdOffset := by cases st <;> rfl
@[simp] theorem State.openBlock_blkStore (s : State) (st : StoreId) (bank w h off : Nat) :
    (s.openBlock st bank w h off).blkStore = st := rfl
@[simp] theorem State.openBlock_blkBank (s : State) (st : StoreId) (bank w h off : Nat) :
    (s.openBlock st bank w h off).blkBank = bank := rfl
@[simp] theorem State.openBlock_blkW (s : State) (st : StoreId) (bank w h off : Nat) :
    (s.openBlock st bank w h off).blkW = w := rfl
@[simp] theorem State.openBlock_blkH (s : State) (st : StoreId) (bank w h off : Nat) :
    (s.openBlock st bank w h off).blkH = h := rfl
@[simp] theorem State.openBlock_blkOff (s : State) (st : StoreId) (bank w h off : Nat) :
    (s.openBlock st bank w h off).blkOff = off := rfl
@[simp] theorem State.openBlock_blkBytes (s : State) (st : StoreId) (bank w h off : Nat) :
    (s.openBlock st bank w h off).blkBytes = w * h / 8 := rfl
@[simp] theorem State.openBlock_blkDone (s : State) (st : StoreId) (bank w h off : Nat) :
    (s.openBlock st bank w h off).blkDone = 0 := rfl
@[simp] theorem State.openBlock_trlDone (s : State) (st : StoreId) (bank w h off : Nat) :
    (s.openBlock st bank w h off).trlDone = 0 := rfl
@[simp] theorem State.openBlock_trlNonzero (s : State) (st : StoreId) (bank w h off : Nat) :
    (s.openBlock st bank w h off).trlNonzero = false := rfl
@[simp] theorem State.openBlock_trailerWarnings (s : State) (st : StoreId) (bank w h off : Nat) :
    (s.openBlock st bank w h off).trailerWarnings = s.trailerWarnings := by cases st <;> rfl
@[simp] theorem State.openBlock_errCode (s : State) (st : StoreId) (bank w h off : Nat) :
    (s.openBlock st bank w h off).errCode = s.errCode := by cases st <;> rfl
@[simp] theorem State.openBlock_errOffset (s : State) (st : StoreId) (bank w h off : Nat) :
    (s.openBlock st bank w h off).errOffset = s.errOffset := by cases st <;> rfl
@[simp] theorem State.openBlock_errCmdOffset (s : State) (st : StoreId) (bank w h off : Nat) :
    (s.openBlock st bank w h off).errCmdOffset = s.errCmdOffset := by cases st <;> rfl
@[simp] theorem State.openBlock_errOpcode (s : State) (st : StoreId) (bank w h off : Nat) :
    (s.openBlock st bank w h off).errOpcode = s.errOpcode := by cases st <;> rfl
@[simp] theorem State.openBlock_errPayload (s : State) (st : StoreId) (bank w h off : Nat) :
    (s.openBlock st bank w h off).errPayload = s.errPayload := by cases st <;> rfl
@[simp] theorem State.openBlock_errPhase (s : State) (st : StoreId) (bank w h off : Nat) :
    (s.openBlock st bank w h off).errPhase = s.errPhase := by cases st <;> rfl
@[simp] theorem State.openBlock_faultReason (s : State) (st : StoreId) (bank w h off : Nat) :
    (s.openBlock st bank w h off).faultReason = s.faultReason := by cases st <;> rfl
@[simp] theorem State.openBlock_cramStore (s : State) (st : StoreId) (bank w h off : Nat) :
    (s.openBlock st bank w h off).cramStore = s.cramStore := by cases st <;> rfl
@[simp] theorem State.openBlock_bramStore (s : State) (st : StoreId) (bank w h off : Nat) :
    (s.openBlock st bank w h off).bramStore = s.bramStore := by cases st <;> rfl
@[simp] theorem State.openBlock_input (s : State) (st : StoreId) (bank w h off : Nat) :
    (s.openBlock st bank w h off).input = s.input := by cases st <;> rfl
@[simp] theorem State.openBlock_storeLimit (s : State) (st : StoreId) (bank w h off : Nat) :
    (s.openBlock st bank w h off).storeLimit = s.storeLimit := by cases st <;> rfl

end Sys2Proof.Machine
end

