-- ==== Sys2Proof/Laws/Memory.lean ====
section
/-! SUPPORT. What the bit stores and MemWrite do: read after write, the canonical form, the count of written cells. -/

namespace Sys2Proof.Machine

/-! ### The listing order -/

theorem CellAddr.ext_fields {a b : CellAddr} (h1 : a.bank = b.bank) (h2 : a.x = b.x) (h3 : a.y = b.y) : a = b := by
  cases a; cases b; simp_all

theorem CellAddr.before_iff (a b : CellAddr) :
    a.before b = true ↔ a.bank < b.bank ∨ (a.bank = b.bank ∧ (a.y < b.y ∨ (a.y = b.y ∧ a.x < b.x))) := by
  simp [CellAddr.before]

theorem CellAddr.before_irrefl (a : CellAddr) : a.before a = false := by
  rw [Bool.eq_false_iff, ne_eq, CellAddr.before_iff]; omega

theorem CellAddr.before_trans {a b c : CellAddr} (h1 : a.before b = true) (h2 : b.before c = true) :
    a.before c = true := by
  rw [CellAddr.before_iff] at *; omega

theorem CellAddr.before_total {a b : CellAddr} (hne : a ≠ b) (h : a.before b = false) : b.before a = true := by
  have h' : ¬ a.before b = true := by simp [h]
  rw [CellAddr.before_iff] at *
  by_contra hc
  exact hne (CellAddr.ext_fields (by omega) (by omega) (by omega))

/-! ### Reads and writes of one store -/

@[simp] theorem Memory.read_nil (a : CellAddr) : Memory.read [] a = none := rfl

theorem Memory.read_write (m : Memory) (a b : CellAddr) (v : Bit) :
    (Memory.write m a v).read b = if a = b then some v else Memory.read m b := by
  induction m with
  | nil => simp [Memory.write, Memory.read]
  | cons e rest ih =>
    obtain ⟨k, u⟩ := e
    simp only [Memory.write]
    split
    · next hk => subst hk; simp only [Memory.read]; split <;> rfl
    · next hk =>
      split
      · simp only [Memory.read]
      · simp only [Memory.read, ih]
        split
        · next hkb => subst hkb; simp [Ne.symm hk]
        · rfl

@[simp] theorem Memory.read_write_same (m : Memory) (a : CellAddr) (v : Bit) :
    (Memory.write m a v).read a = some v := by simp [Memory.read_write]

theorem Memory.read_write_other (m : Memory) {a b : CellAddr} (v : Bit) (h : a ≠ b) :
    (Memory.write m a v).read b = Memory.read m b := by simp [Memory.read_write, h]

/-- The canonical form, unfolded once: the first cell comes before the next one, and the rest is canonical. -/
theorem Memory.wf_cons (a : CellAddr) (v : Bit) (m : Memory) :
    Memory.wf ((a, v) :: m) = true ↔ (∀ e ∈ m.head?, a.before e.1 = true) ∧ Memory.wf m = true := by
  cases m with
  | nil => simp [Memory.wf]
  | cons e rest => obtain ⟨b, u⟩ := e; simp [Memory.wf]

/-- MemWrite keeps the canonical form. -/
theorem Memory.write_wf {m : Memory} (a : CellAddr) (v : Bit) (h : Memory.wf m = true) :
    Memory.wf (Memory.write m a v) = true := by
  induction m with
  | nil => simp [Memory.write, Memory.wf]
  | cons e rest ih =>
    obtain ⟨k, u⟩ := e
    rw [Memory.wf_cons] at h
    obtain ⟨hh, ht⟩ := h
    simp only [Memory.write]
    split
    · next hk => subst hk; rw [Memory.wf_cons]; exact ⟨hh, ht⟩
    · next hk =>
      split
      · next hb => rw [Memory.wf_cons]; exact ⟨by simpa using hb, (Memory.wf_cons ..).2 ⟨hh, ht⟩⟩
      · next hb =>
        rw [Memory.wf_cons]
        refine ⟨?_, ih ht⟩
        have hka : k.before a = true :=
          CellAddr.before_total (Ne.symm hk) (by simpa using hb)
        cases rest with
        | nil => simpa [Memory.write] using hka
        | cons e' r' =>
          obtain ⟨k', u'⟩ := e'
          simp only [Memory.write]
          split
          · simpa using hka
          · split
            · simpa using hka
            · simpa using hh

/-- In canonical form, every cell after the first comes after it. -/
theorem Memory.wf_before {a : CellAddr} {v : Bit} {m : Memory} (h : Memory.wf ((a, v) :: m) = true) :
    ∀ e ∈ m, a.before e.1 = true := by
  induction m generalizing a v with
  | nil => simp
  | cons e rest ih =>
    obtain ⟨k, u⟩ := e
    rw [Memory.wf_cons] at h
    have hk : a.before k = true := by simpa using h.1
    intro e he
    rcases List.mem_cons.1 he with rfl | he
    · exact hk
    · exact CellAddr.before_trans hk (ih h.2 e he)

theorem Memory.read_none_of_before {a : CellAddr} {m : Memory} (h : ∀ e ∈ m, a.before e.1 = true) :
    Memory.read m a = none := by
  induction m with
  | nil => rfl
  | cons e rest ih =>
    obtain ⟨k, u⟩ := e
    have hk : a.before k = true := h (k, u) (by simp)
    have hne : k ≠ a := by rintro rfl; simp [CellAddr.before_irrefl] at hk
    simp only [Memory.read, hne, if_false]
    exact ih fun e he => h e (by simp [he])

/-- A write adds a cell exactly where there was none. -/
theorem Memory.write_length {m : Memory} (a : CellAddr) (v : Bit) (h : Memory.wf m = true) :
    (Memory.write m a v).length = m.length + (if Memory.read m a = none then 1 else 0) := by
  induction m with
  | nil => simp [Memory.write]
  | cons e rest ih =>
    obtain ⟨k, u⟩ := e
    have hb := Memory.wf_before h
    rw [Memory.wf_cons] at h
    simp only [Memory.write, Memory.read]
    split
    · simp
    · next hk =>
      split
      · next hak =>
        have : Memory.read rest a = none :=
          Memory.read_none_of_before fun e he => CellAddr.before_trans hak (hb e he)
        simp [this]
      · simp only [List.length_cons, ih h.2]; omega

/-! ### The stores of State -/

@[simp] theorem State.store_setStore (s : State) (st st' : StoreId) (m : Memory) :
    (s.setStore st m).store st' = if st = st' then m else s.store st' := by
  cases st <;> cases st' <;> rfl

theorem State.memRead_setStore (s : State) (st st' : StoreId) (m : Memory) (a : CellAddr) :
    (s.setStore st m).memRead st' a = if st = st' then m.read a else s.memRead st' a := by
  simp only [State.memRead, State.store_setStore]; split <;> rfl

/-- The stores are canonical at reset (10_state.md R46: empty). -/
theorem State.reset_storesCanonical : State.reset.StoresCanonical := ⟨rfl, rfl⟩

theorem State.storesCanonical_iff (s : State) : s.StoresCanonical ↔ ∀ st, Memory.wf (s.store st) = true :=
  ⟨fun h st => by cases st; exacts [h.1, h.2], fun h => ⟨h .cram, h .bram⟩⟩

/-- MemWrite, once: it fails exactly at STORE_LIMIT on a new cell; otherwise it writes the one cell (20_memory.md R52). -/
theorem State.memWrite_some {s t : State} {st : StoreId} {a : CellAddr} {bit : Bit} (h : s.memWrite st a bit = some t) :
    t = s.setStore st ((s.store st).write a bit) ∧ ¬(s.memRead st a = none ∧ s.storeLimit = some s.cellCount) := by
  unfold State.memWrite at h
  split at h
  · cases h
  · next hc => exact ⟨by simpa using h.symm, hc⟩

theorem State.memWrite_read {s t : State} {st : StoreId} {a : CellAddr} {bit : Bit} (h : s.memWrite st a bit = some t)
    (st' : StoreId) (b : CellAddr) :
    t.memRead st' b = if st = st' ∧ a = b then some bit else s.memRead st' b := by
  rw [(State.memWrite_some h).1, State.memRead_setStore, Memory.read_write]
  by_cases h1 : st = st'
  · subst h1; simp [State.memRead]
  · simp [h1]

theorem State.memWrite_canonical {s t : State} {st : StoreId} {a : CellAddr} {bit : Bit}
    (h : s.memWrite st a bit = some t) (hs : s.StoresCanonical) : t.StoresCanonical := by
  rw [(State.memWrite_some h).1, State.storesCanonical_iff]
  rw [State.storesCanonical_iff] at hs
  intro st'
  rw [State.store_setStore]
  split
  · exact Memory.write_wf _ _ (hs st)
  · exact hs st'

theorem State.memWrite_count {s t : State} {st : StoreId} {a : CellAddr} {bit : Bit}
    (h : s.memWrite st a bit = some t) (hs : s.StoresCanonical) :
    t.cellCount = s.cellCount + (if s.memRead st a = none then 1 else 0) := by
  rw [(State.memWrite_some h).1]
  rw [State.storesCanonical_iff] at hs
  have hw := Memory.write_length a bit (hs st)
  by_cases hr : (s.store st).read a = none <;> cases st <;>
    simp_all [State.setStore, State.cellCount, State.store, State.memRead] <;> omega

/-- A sequence of cell writes touches the two stores alone. -/
theorem State.memWriteAll_frame {s t : State} {st : StoreId} {ws : List (CellAddr × Bit)}
    (h : s.memWriteAll st ws = some t) : t = { s with cramStore := t.cramStore, bramStore := t.bramStore } := by
  induction ws generalizing s with
  | nil => simp only [State.memWriteAll, Option.some.injEq] at h; subst h; rfl
  | cons w rest ih =>
    obtain ⟨a, bit⟩ := w
    simp only [State.memWriteAll] at h
    split at h
    · cases h
    · next u hu =>
      have hu' := (State.memWrite_some hu).1
      rw [ih h, hu']
      cases st <;> rfl

/-- What a cell reads after a sequence of writes to distinct cells: the bit written there, or what it read before. -/
theorem State.memWriteAll_read {s t : State} {st : StoreId} {ws : List (CellAddr × Bit)}
    (h : s.memWriteAll st ws = some t) (hd : (ws.map Prod.fst).Nodup) :
    (∀ w ∈ ws, t.memRead st w.1 = some w.2) ∧
    ∀ st' b, (st = st' → b ∉ ws.map Prod.fst) → t.memRead st' b = s.memRead st' b := by
  induction ws generalizing s with
  | nil => simp only [State.memWriteAll, Option.some.injEq] at h; subst h; simp
  | cons w rest ih =>
    obtain ⟨a, bit⟩ := w
    simp only [State.memWriteAll] at h
    split at h
    · cases h
    · next u hu =>
      simp only [List.map_cons, List.nodup_cons] at hd
      obtain ⟨ih1, ih2⟩ := ih h hd.2
      constructor
      · intro w hw
        rcases List.mem_cons.1 hw with rfl | hw
        · rw [ih2 st a (fun _ => hd.1), State.memWrite_read hu]; simp
        · exact ih1 w hw
      · intro st' b hb
        rw [ih2 st' b (fun e hm => hb e (by simp [hm])), State.memWrite_read hu]
        rw [if_neg]
        rintro ⟨rfl, rfl⟩
        exact hb rfl (by simp)

theorem State.memWriteAll_canonical {s t : State} {st : StoreId} {ws : List (CellAddr × Bit)}
    (h : s.memWriteAll st ws = some t) (hs : s.StoresCanonical) : t.StoresCanonical := by
  induction ws generalizing s with
  | nil => simp only [State.memWriteAll, Option.some.injEq] at h; exact h ▸ hs
  | cons w rest ih =>
    obtain ⟨a, bit⟩ := w
    simp only [State.memWriteAll] at h
    split at h
    · cases h
    · next u hu => exact ih h (State.memWrite_canonical hu hs)

/-- STORE_LIMIT, where set, is never exceeded (00_scope.md R9). -/
theorem State.memWriteAll_withinLimit {s t : State} {st : StoreId} {ws : List (CellAddr × Bit)}
    (h : s.memWriteAll st ws = some t) (hs : s.StoresCanonical) (hl : s.WithinLimit) : t.WithinLimit := by
  induction ws generalizing s with
  | nil => simp only [State.memWriteAll, Option.some.injEq] at h; exact h ▸ hl
  | cons w rest ih =>
    obtain ⟨a, bit⟩ := w
    simp only [State.memWriteAll] at h
    split at h
    · cases h
    · next u hu =>
      refine ih h (State.memWrite_canonical hu hs) ?_
      obtain ⟨he, hlim⟩ := State.memWrite_some hu
      intro n hn
      have hn' : s.storeLimit = some n := by rw [he] at hn; simpa using hn
      have hc := State.memWrite_count hu hs
      have hle := hl n hn'
      split at hc
      · next hr =>
        have : n ≠ s.cellCount := fun e => hlim ⟨hr, by rw [hn', e]⟩
        omega
      · omega

/-- Without STORE_LIMIT every write lands. -/
theorem State.memWriteAll_unlimited (s : State) (st : StoreId) (ws : List (CellAddr × Bit)) (h : s.storeLimit = none) :
    ∃ t, s.memWriteAll st ws = some t := by
  induction ws generalizing s with
  | nil => exact ⟨s, rfl⟩
  | cons w rest ih =>
    obtain ⟨a, bit⟩ := w
    have hw : s.memWrite st a bit = some (s.setStore st ((s.store st).write a bit)) := by simp [State.memWrite, h]
    simp only [State.memWriteAll, hw]
    exact ih _ (by simp [h])

end Sys2Proof.Machine
end

