-- ==== Sys2Proof/Laws/Step.lean ====
section
/-! SUPPORT. Everything one step can do, said once: the cases of step, and the results of each command. -/

namespace Sys2Proof.Machine

/-! ### Steps that are no dispatch -/

theorem State.active_iff (s : State) : s.active = true ↔ s.top = .sync ∨ s.top = .run := by
  simp [State.active]

theorem State.accepts_iff (s : State) : s.accepts = true ↔ (s.top = .sync ∨ s.top = .run) ∧ ∃ b, s.nextByte = some b := by
  simp [State.accepts, State.active_iff, Option.isSome_iff_exists]

/-- EOS enters FAILED with some error record; nothing else of the state changes (60_exceptions.md R182). -/
theorem State.endOfStream_raise (s : State) :
    ∃ c op p, s.endOfStream = s.raise .unexpectedEndOfStream c op p 0 ∧ (p = none ∨ p = some s.payload) := by
  unfold State.endOfStream
  split <;> exact ⟨_, _, _, rfl, by simp⟩

@[simp] theorem State.endOfStream_top (s : State) : s.endOfStream.top = .failed := by
  obtain ⟨c, op, p, h, -⟩ := s.endOfStream_raise
  rw [h]; rfl

/-- What a trailer byte leaves unchanged (43_subcommands.md R153). -/
theorem trailerStep_frame (b : Byte) (s : State) : trailerStep b s = { s with
    streamOffset := s.streamOffset + 1, trlDone := (trailerStep b s).trlDone, trlNonzero := trailerFlag s.trlNonzero b,
    trailerWarnings := (trailerStep b s).trailerWarnings, phase := (trailerStep b s).phase } := by
  unfold trailerStep; split <;> rfl

/-! ### Commands -/

/-- The configuration registers a command other than a block command may write. -/
structure Settings where
  bank : OrUnset Nat
  width : OrUnset Nat
  height : OrUnset Nat
  offset : OrUnset Nat
  crc : OrUnset (BitVec 16)
  warmboot : OrUnset Bit
  nosleep : OrUnset Bit
  freq : Freq

/-- `s` with its settings replaced. -/
def State.withSettings (s : State) (c : Settings) : State :=
  { s with
    bank := c.bank, width := c.width, height := c.height, offset := c.offset, crc := c.crc,
    warmboot := c.warmboot, nosleep := c.nosleep, freq := c.freq }

/-- The settings after a setting command `op`, `p` that completes, from those of `s` (42_opcodes.md, 43_subcommands.md
section 2). -/
inductive SettingsAfter (s : State) : Nibble → Nat → Settings → Prop
  | bank (p : Nat) : SettingsAfter s 1 p ⟨some p, s.width, s.height, s.offset, s.crc, s.warmboot, s.nosleep, s.freq⟩
  | crcchk (p : Nat) : SettingsAfter s 2 p ⟨s.bank, s.width, s.height, s.offset, s.crc, s.warmboot, s.nosleep, s.freq⟩
  | freq (p : Nat) : SettingsAfter s 5 p ⟨s.bank, s.width, s.height, s.offset, s.crc, s.warmboot, s.nosleep, freqOf p⟩
  | setw (p : Nat) : SettingsAfter s 6 p ⟨s.bank, some (p + 1), s.height, s.offset, s.crc, s.warmboot, s.nosleep, s.freq⟩
  | seth (p : Nat) : SettingsAfter s 7 p ⟨s.bank, s.width, some p, s.offset, s.crc, s.warmboot, s.nosleep, s.freq⟩
  | setoff (p : Nat) : SettingsAfter s 8 p ⟨s.bank, s.width, s.height, some p, s.crc, s.warmboot, s.nosleep, s.freq⟩
  | flags (p : Nat) (w n : Bit) (h : featureFlags p = some (w, n)) :
      SettingsAfter s 9 p ⟨s.bank, s.width, s.height, s.offset, s.crc, some w, some n, s.freq⟩
  | crcrst : SettingsAfter s 0 5
      ⟨s.bank, s.width, s.height, s.offset, some Config.crcResetValue, s.warmboot, s.nosleep, s.freq⟩

/-- Everything the dispatch step of the command `op`, `len`, `p` can answer from `s` (41_framing.md R103). -/
inductive CommandTo (s : State) (op len : Nibble) (p : Nat) : State → Prop
  /-- A setting command completes. -/
  | settings (c : Settings) (h : SettingsAfter s op p c) : CommandTo s op len p ((s.commandDone op len p).withSettings c)
  /-- WAKEUP. -/
  | wakeup (h : op = 0 ∧ p = 6) : CommandTo s op len p { s.endFraming op len p with top := .terminated }
  /-- A fatal error: nothing of the step but the error record lands. -/
  | error (e : ErrCode) (h : e ≠ .noError) (hs : e ≠ .unexpectedEndOfStream) :
      CommandTo s op len p (s.raiseDispatch e op p)
  /-- A block command whose geometry is legal. -/
  | block (st : StoreId) (bank w h off : Nat) (hop : op = 0) (hp : p = st.selector)
      (hb : s.bank = some bank) (hw : s.width = some w) (hh : s.height = some h) (ho : s.offset = some off)
      (hm : w * h % 8 = 0) : CommandTo s op len p ((s.endFraming op len p).openBlock st bank w h off)
  /-- A block command before the geometry. -/
  | unset (hop : op = 0) (hp : p = 1 ∨ p = 3)
      (hn : s.bank = none ∨ s.width = none ∨ s.height = none ∨ s.offset = none) :
      CommandTo s op len p (s.modelFault .geometryUnset)

/-- BlockStart's three outcomes (43_subcommands.md R150). -/
theorem blockStart_to (st : StoreId) (len : Nibble) (s : State) :
    CommandTo s 0 len st.selector (blockStart st len st.selector s) := by
  unfold blockStart
  split
  · next bank w h off hb hw hh ho =>
    split
    · exact .error _ (by decide) (by decide)
    · next hm => exact .block st bank w h off rfl rfl hb hw hh ho (by omega)
  · next hn =>
    refine .unset rfl (by cases st <;> simp [StoreId.selector]) ?_
    cases hb : s.bank with
    | none => exact .inl rfl
    | some b =>
      cases hw : s.width with
      | none => exact .inr (.inl rfl)
      | some w =>
        cases hh : s.height with
        | none => exact .inr (.inr (.inl rfl))
        | some h =>
          cases ho : s.offset with
          | none => exact .inr (.inr (.inr rfl))
          | some o => exact absurd ho (hn b w h o hb hw hh)

/-- Dispatch answers a next state, and one of these (41_framing.md R103). -/
theorem exec_ofCommand (op len : Nibble) (p : Nat) (s : State) :
    ∃ t, exec (ofCommand op len p) s = .next t ∧ CommandTo s op len p t := by
  rcases nibble_cases op with h | h | h | h | h | h | h | h | h | h | h | h | h | h | h | h <;> subst h
  · change ∃ t, exec (ofSub len p) s = .next t ∧ _
    unfold ofSub
    split
    · next h => subst h; exact ⟨_, rfl, blockStart_to .cram len s⟩
    · split
      · next h => subst h; exact ⟨_, rfl, blockStart_to .bram len s⟩
      · split
        · next h => subst h; exact ⟨_, rfl, .settings _ .crcrst⟩
        · split
          · next h => subst h; exact ⟨_, rfl, .wakeup ⟨rfl, rfl⟩⟩
          · exact ⟨_, rfl, .error _ (by decide) (by decide)⟩
  · exact ⟨_, rfl, .settings _ (.bank p)⟩
  · exact ⟨_, rfl, .settings _ (.crcchk p)⟩
  · exact ⟨_, rfl, .error _ (by decide) (by decide)⟩
  · exact ⟨_, rfl, .error _ (by decide) (by decide)⟩
  · exact ⟨_, rfl, .settings _ (.freq p)⟩
  · exact ⟨_, rfl, .settings _ (.setw p)⟩
  · exact ⟨_, rfl, .settings _ (.seth p)⟩
  · exact ⟨_, rfl, .settings _ (.setoff p)⟩
  · change ∃ t, execFlags len p s = .next t ∧ _
    unfold execFlags
    split
    · next w n h => exact ⟨_, rfl, .settings _ (.flags p w n h)⟩
    · exact ⟨_, rfl, .error _ (by decide) (by decide)⟩
  all_goals exact ⟨_, rfl, .error _ (by decide) (by decide)⟩

/-! ### The cases of one step -/

/-- Everything one step can do from `s` (00_scope.md R12). -/
inductive StepTo (s : State) : State → Prop
  /-- Quiescent. -/
  | quiet (h : s.active = false) : StepTo s s
  /-- EOS while active. -/
  | eos (h : s.active = true) (hb : s.nextByte = none) : StepTo s s.endOfStream
  /-- A SYNC byte without a match. -/
  | syncByte (b : Byte) (h : s.top = .sync) (hb : s.nextByte = some b)
      (hw : shiftWindow s.window b ≠ Config.magic) : StepTo s (s.shiftSync b)
  /-- The SYNC byte that completes the preamble. -/
  | preamble (b : Byte) (h : s.top = .sync) (hb : s.nextByte = some b) (hw : shiftWindow s.window b = Config.magic) :
      StepTo s { s with
        window := Config.magic, streamOffset := s.streamOffset + 1, syncBytes := some (s.streamOffset + 1),
        top := .run, phase := .cmd }
  /-- A command byte with L >= 1. -/
  | openCommand (b : Byte) (h : s.top = .run) (hp : s.phase = .cmd) (hb : s.nextByte = some b) (hl : lenField b ≠ 0) :
      StepTo s (s.openCommand b)
  /-- A command byte with L = 0. -/
  | dispatchCmd (b : Byte) (t : State) (h : s.top = .run) (hp : s.phase = .cmd) (hb : s.nextByte = some b)
      (hl : lenField b = 0) (ht : CommandTo s (opField b) 0 0 t) : StepTo s t
  /-- A payload byte that is not the last. -/
  | shiftPayload (b : Byte) (h : s.top = .run) (hp : s.phase = .payload) (hb : s.nextByte = some b)
      (hr : 2 ≤ s.payRemain) : StepTo s (s.shiftPayload b)
  /-- The last payload byte. -/
  | dispatchPayload (b : Byte) (t : State) (h : s.top = .run) (hp : s.phase = .payload) (hb : s.nextByte = some b)
      (hr : s.payRemain = 1) (ht : CommandTo s s.cmdOp s.cmdLen (shiftIn s.payload b) t) : StepTo s t
  /-- A data byte whose eight cells land. -/
  | data (b : Byte) (u : State) (h : s.top = .run) (hp : s.phase = .data) (hb : s.nextByte = some b)
      (hd : s.blkDone < s.blkBytes) (hw : 0 < s.blkW)
      (hu : s.memWriteAll s.blkStore (s.dataWrites b) = some u) :
      StepTo s { u with
        streamOffset := s.streamOffset + 1, blkDone := s.blkDone + 1,
        phase := if s.blkDone + 1 = s.blkBytes then .trailer else s.phase }
  /-- A data byte that exceeds STORE_LIMIT. -/
  | dataLimit (b : Byte) (h : s.top = .run) (hp : s.phase = .data) (hb : s.nextByte = some b)
      (hd : s.blkDone < s.blkBytes) (hw : 0 < s.blkW)
      (hu : s.memWriteAll s.blkStore (s.dataWrites b) = none) : StepTo s (s.modelFault .storeLimitExceeded)
  /-- A trailer byte. -/
  | trailer (b : Byte) (h : s.top = .run) (hp : s.phase = .trailer) (hb : s.nextByte = some b) :
      StepTo s (trailerStep b s)

/-- In the operand ranges of R102 and R152 a step answers a next state, and one of the cases. -/
theorem step_total (s : State) (hpay : s.top = .run → s.phase = .payload → s.payRemain ≠ 0)
    (hdata : s.top = .run → s.phase = .data → s.blkDone < s.blkBytes ∧ 0 < s.blkW) :
    ∃ t, step s = .next t ∧ StepTo s t := by
  cases htop : s.top with
  | terminated => exact ⟨s, by simp [step, fetch, htop], .quiet (by simp [State.active, htop])⟩
  | failed => exact ⟨s, by simp [step, fetch, htop], .quiet (by simp [State.active, htop])⟩
  | modelFault => exact ⟨s, by simp [step, fetch, htop], .quiet (by simp [State.active, htop])⟩
  | sync =>
    cases hb : s.nextByte with
    | none => exact ⟨_, by simp [step, fetch, htop, hb], .eos (by simp [State.active, htop]) hb⟩
    | some b =>
      by_cases hw : shiftWindow s.window b = Config.magic
      · exact ⟨_, by simp [step, fetch, htop, hb, fetchSync, hw, exec, execPreamble], .preamble b htop hb hw⟩
      · exact ⟨_, by simp [step, fetch, htop, hb, fetchSync, hw], .syncByte b htop hb hw⟩
  | run =>
    cases hb : s.nextByte with
    | none => exact ⟨_, by simp [step, fetch, htop, hb], .eos (by simp [State.active, htop]) hb⟩
    | some b =>
      cases hp : s.phase with
      | cmd =>
        by_cases hl : lenField b = 0
        · obtain ⟨t, h1, h2⟩ := exec_ofCommand (opField b) 0 0 s
          exact ⟨t, by simp only [step, fetch, htop, hb, fetchRun, hp, fetchCmd, hl, if_true]; exact h1, .dispatchCmd b t htop hp hb hl h2⟩
        · exact ⟨_, by simp only [step, fetch, htop, hb, fetchRun, hp, fetchCmd, if_neg hl], .openCommand b htop hp hb hl⟩
      | payload =>
        have h0 := hpay htop hp
        by_cases h1 : s.payRemain = 1
        · obtain ⟨t, he, h2⟩ := exec_ofCommand s.cmdOp s.cmdLen (shiftIn s.payload b) s
          exact ⟨t, by simp [step, fetch, htop, hb, fetchRun, hp, fetchPayload, h1, he],
            .dispatchPayload b t htop hp hb h1 h2⟩
        · exact ⟨_, by simp [step, fetch, htop, hb, fetchRun, hp, fetchPayload, h0, h1],
            .shiftPayload b htop hp hb (by omega)⟩
      | data =>
        obtain ⟨hd, hw⟩ := hdata htop hp
        cases hu : s.memWriteAll s.blkStore (s.dataWrites b) with
        | none => exact ⟨_, by simp [step, fetch, htop, hb, fetchRun, hp, dataStep, hd, hw, hu],
            .dataLimit b htop hp hb hd hw hu⟩
        | some u =>
          exact ⟨_, by simp only [step, fetch, htop, hb, fetchRun, hp, dataStep, hd, hw, hu, and_self, if_true],
            .data b u htop hp hb hd hw hu⟩
      | trailer => exact ⟨_, by simp [step, fetch, htop, hb, fetchRun, hp], .trailer b htop hp hb⟩

/-- The only states in which step faults. -/
theorem step_cases {s t : State} (h : step s = .next t) : StepTo s t := by
  by_cases hpay : s.top = .run → s.phase = .payload → s.payRemain ≠ 0
  · by_cases hdata : s.top = .run → s.phase = .data → s.blkDone < s.blkBytes ∧ 0 < s.blkW
    · obtain ⟨u, h1, h2⟩ := step_total s hpay hdata
      rw [h1] at h; cases h; exact h2
    · simp only [not_forall, exists_prop] at hdata
      obtain ⟨htop, hp, hn⟩ := hdata
      cases hb : s.nextByte with
      | none =>
        simp only [step, fetch, htop, hb] at h
        cases h; exact .eos (by simp [State.active, htop]) hb
      | some b => simp [step, fetch, htop, hb, fetchRun, hp, dataStep, hn] at h
  · simp only [not_forall, exists_prop, not_not] at hpay
    obtain ⟨htop, hp, hn⟩ := hpay
    cases hb : s.nextByte with
    | none =>
      simp only [step, fetch, htop, hb] at h
      cases h; exact .eos (by simp [State.active, htop]) hb
    | some b => simp [step, fetch, htop, hb, fetchRun, hp, fetchPayload, hn] at h

end Sys2Proof.Machine
end

