-- ==== Sys2Proof/Laws/Block.lean ====
section
/-! SUPPORT. Extents, the cells of a data byte, and what every step other than a DATA step leaves of the stores. -/

namespace Sys2Proof.Machine

/-! ### Extents (10_state.md R33, R43(b)) -/

theorem unsetLe_refl (x : OrUnset Nat) : unsetLe x x := by cases x <;> simp [unsetLe]

theorem unsetLe_trans {x y z : OrUnset Nat} (h : unsetLe x y) (h' : unsetLe y z) : unsetLe x z := by
  cases x <;> cases y <;> cases z <;> simp_all [unsetLe]; omega

theorem unsetLe_max_left (x : OrUnset Nat) (v : Nat) : unsetLe x (maxUnset x v) := by
  cases x <;> simp [maxUnset, unsetLe]

theorem unsetLe_max_right (x : OrUnset Nat) (v : Nat) : unsetLe (some v) (maxUnset x v) := by
  cases x <;> simp [maxUnset, unsetLe]

/-- A bound on both arguments bounds the maximum. -/
theorem OrUnset.holds_max {x : OrUnset Nat} {v : Nat} {P : Nat → Prop} (hx : OrUnset.Holds x P) (hv : P v) :
    OrUnset.Holds (maxUnset x v) P := by
  intro u hu
  cases x with
  | none => simp only [maxUnset, Option.some.injEq] at hu; exact hu ▸ hv
  | some w =>
    simp only [maxUnset, Option.some.injEq] at hu
    subst hu
    rcases le_total w v with h | h
    · rw [max_eq_right h]; exact hv
    · rw [max_eq_left h]; exact hx w rfl

/-! ### The cells of a data byte (43_subcommands.md R152, R156) -/

theorem State.dataCell_inj {s : State} {m n : Nat} (h : s.dataCell m = s.dataCell n) : m = n := by
  simp only [State.dataCell, cellOf, CellAddr.mk.injEq, true_and] at h
  obtain ⟨h1, h2⟩ := h
  have h3 := Nat.div_add_mod (8 * s.blkDone + m) s.blkW
  have h4 := Nat.div_add_mod (8 * s.blkDone + n) s.blkW
  have h2' : (8 * s.blkDone + m) / s.blkW = (8 * s.blkDone + n) / s.blkW := by omega
  rw [h1, h2'] at h3
  omega

/-- The eight cells of a data byte are distinct. -/
theorem State.dataWrites_nodup (s : State) (b : Byte) : ((s.dataWrites b).map Prod.fst).Nodup := by
  simp only [State.dataWrites, List.map_map]
  exact List.nodup_range.map fun _ _ h => State.dataCell_inj h

theorem State.mem_dataWrites {s : State} {b : Byte} {w : CellAddr × Bit} :
    w ∈ s.dataWrites b ↔ ∃ n < 8, w = (s.dataCell n, dataBit b n) := by
  simp only [State.dataWrites, List.mem_map, List.mem_range]
  exact ⟨fun ⟨n, h, e⟩ => ⟨n, h, e.symm⟩, fun ⟨n, h, e⟩ => ⟨n, h, e.symm⟩⟩

theorem State.mem_dataCells {s : State} {b : Byte} {a : CellAddr} :
    a ∈ (s.dataWrites b).map Prod.fst ↔ ∃ n < 8, a = s.dataCell n := by
  simp only [List.mem_map, State.mem_dataWrites]
  constructor
  · rintro ⟨w, ⟨n, h, rfl⟩, rfl⟩; exact ⟨n, h, rfl⟩
  · rintro ⟨n, h, rfl⟩; exact ⟨_, ⟨n, h, rfl⟩, rfl⟩

/-! ### Steps that write no cell -/

/-- A command writes no store and no INPUT, and only raises extents (20_memory.md R53, 10_state.md R43(b)). -/
theorem CommandTo.stores {s t : State} {op len : Nibble} {p : Nat} (hc : CommandTo s op len p t) :
    t.cramStore = s.cramStore ∧ t.bramStore = s.bramStore ∧ t.storeLimit = s.storeLimit ∧ t.input = s.input ∧
    ∀ st, unsetLe (s.extW st) (t.extW st) ∧ unsetLe (s.extH st) (t.extH st) := by
  cases hc with
  | block st =>
    refine ⟨by simp, by simp, by simp, by simp, fun st' => ?_⟩
    cases st <;> cases st' <;>
      first
      | exact ⟨unsetLe_refl _, unsetLe_refl _⟩
      | exact ⟨unsetLe_max_left _ _, unsetLe_max_left _ _⟩
  | _ => exact ⟨rfl, rfl, rfl, rfl, fun st => by cases st <;> exact ⟨unsetLe_refl _, unsetLe_refl _⟩⟩

end Sys2Proof.Machine
end

