-- ==== Sys2Proof/Laws/PerInstr.lean ====
section
/-! SUPPORT. Per-instruction families (LAWS.json). EncodedBytes: how many bytes a well-formed instruction takes, and
that a command's payload, read from the bytes after the command byte, is the payload the instruction carries
(30_encoding.md R72, R73). -/

namespace Sys2Proof.Laws.EncodedBytes

/-- The preamble is four bytes; every command is 1 + L bytes whose tail has the instruction's payload as its
big-endian value, below 2^120. -/
def Statement (i : Instr) : Prop :=
  i.WellFormed →
    (i.context = .sync → (encode i).length = 4) ∧
    (i.context = .run →
      (encode i).length = 1 + i.len.toNat ∧ beValue ((encode i).drop 1) = i.payload ∧ i.payload < 2 ^ 120)

/-- The one argument for every command: its payload fits. -/
theorem of_fits {i : Instr} (hc : i.context = .run) (h : fitsIn i.len i.payload = true) : Statement i := by
  intro _
  have hlt : i.payload < 256 ^ i.len.toNat := by simpa [fitsIn] using h
  refine ⟨fun hs => by simp [hc] at hs, fun _ => ?_⟩
  simp only [encode, hc, encodeCommand, List.length_cons, beBytes_length, List.drop_one, List.tail_cons,
    beValue_beBytes]
  exact ⟨Nat.add_comm _ _, Nat.mod_eq_of_lt hlt, fitsIn_lt h⟩

theorem preamble : Statement .preamble := fun _ => ⟨fun _ => rfl, fun h => by cases h⟩

theorem cram (len : Nibble) : Statement (.cram len) := fun h => of_fits rfl h h

theorem bram (len : Nibble) : Statement (.bram len) := fun h => of_fits rfl h h

theorem crcrst (len : Nibble) : Statement (.crcrst len) := fun h => of_fits rfl h h

theorem wakeup (len : Nibble) : Statement (.wakeup len) := fun h => of_fits rfl h h

theorem subUnknown (len : Nibble) (p : Nat) : Statement (.subUnknown len p) := fun h =>
  of_fits rfl (Bool.and_eq_true_iff.1 h).1 h

theorem bank (len : Nibble) (p : Nat) : Statement (.bank len p) := fun h => of_fits rfl h h

theorem crcchk (len : Nibble) (p : Nat) : Statement (.crcchk len p) := fun h => of_fits rfl h h

theorem rsv3 (len : Nibble) (p : Nat) : Statement (.rsv3 len p) := fun h => of_fits rfl h h

theorem rsv4 (len : Nibble) (p : Nat) : Statement (.rsv4 len p) := fun h => of_fits rfl h h

theorem freq (len : Nibble) (p : Nat) : Statement (.freq len p) := fun h => of_fits rfl h h

theorem setw (len : Nibble) (p : Nat) : Statement (.setw len p) := fun h => of_fits rfl h h

theorem seth (len : Nibble) (p : Nat) : Statement (.seth len p) := fun h => of_fits rfl h h

theorem setoff (len : Nibble) (p : Nat) : Statement (.setoff len p) := fun h => of_fits rfl h h

theorem flags (len : Nibble) (p : Nat) : Statement (.flags len p) := fun h => of_fits rfl h h

theorem op10 (len : Nibble) (p : Nat) : Statement (.op10 len p) := fun h => of_fits rfl h h

theorem op11 (len : Nibble) (p : Nat) : Statement (.op11 len p) := fun h => of_fits rfl h h

theorem op12 (len : Nibble) (p : Nat) : Statement (.op12 len p) := fun h => of_fits rfl h h

theorem op13 (len : Nibble) (p : Nat) : Statement (.op13 len p) := fun h => of_fits rfl h h

theorem op14 (len : Nibble) (p : Nat) : Statement (.op14 len p) := fun h => of_fits rfl h h

theorem op15 (len : Nibble) (p : Nat) : Statement (.op15 len p) := fun h => of_fits rfl h h

end Sys2Proof.Laws.EncodedBytes
end

