-- ==== Sys2Proof/Laws/Run.lean ====
section
/-! SUPPORT. Runs of several steps: the first step, the last step, and induction along a run, packaged once. -/

namespace Sys2Proof.Machine

@[simp] theorem State.runSteps_zero (s : State) : s.runSteps 0 = .next s := rfl

/-- A run is its first step and the rest. -/
theorem State.runSteps_succ {s t : State} (n : Nat) (h : step s = .next t) : s.runSteps (n + 1) = t.runSteps n := by
  have h' : core.step s = .next t := h
  simp only [State.runSteps, Host.Core.run, h']
  rfl

theorem State.runSteps_fault {s : State} {r : Fault} (n : Nat) (h : step s = .fault r) :
    s.runSteps (n + 1) = .fault r := by
  have h' : core.step s = .fault r := h
  simp only [State.runSteps, Host.Core.run, h']
  rfl

theorem State.runSteps_refused {s : State} {r : Refusal} (n : Nat) (h : step s = .refused r) :
    s.runSteps (n + 1) = .refused r := by
  have h' : core.step s = .refused r := h
  simp only [State.runSteps, Host.Core.run, h']
  rfl

@[simp] theorem State.runSteps_one (s : State) : s.runSteps 1 = step s := by
  cases h : step s with
  | next t => exact State.runSteps_succ 0 h
  | fault r => exact State.runSteps_fault 0 h
  | refused r => exact State.runSteps_refused 0 h

/-- A run that answers a next state goes on from there. -/
theorem State.runSteps_add {s t : State} {m : Nat} (n : Nat) (h : s.runSteps m = .next t) :
    s.runSteps (m + n) = t.runSteps n := by
  induction m generalizing s with
  | zero => simp only [State.runSteps_zero, Host.Outcome.next.injEq] at h; rw [Nat.zero_add, h]
  | succ m ih =>
    cases hs : step s with
    | next u =>
      rw [State.runSteps_succ m hs] at h
      rw [Nat.add_right_comm, State.runSteps_succ _ hs]
      exact ih h
    | fault r => rw [State.runSteps_fault m hs] at h; cases h
    | refused r => rw [State.runSteps_refused m hs] at h; cases h

/-- A run is all but its last step, and that step. -/
theorem State.runSteps_last {s t : State} {n : Nat} (h : s.runSteps n = .next t) : s.runSteps (n + 1) = step t := by
  rw [State.runSteps_add 1 h, State.runSteps_one]

/-- Induction along a run: what holds before every step of it, and is kept by every step, holds after it. -/
theorem State.runSteps_invariant {Q : State → Prop} (hstep : ∀ s t, Q s → step s = .next t → Q t)
    {s t : State} {n : Nat} (hs : Q s) (h : s.runSteps n = .next t) : Q t := by
  induction n generalizing s with
  | zero => simp only [State.runSteps_zero, Host.Outcome.next.injEq] at h; exact h ▸ hs
  | succ n ih =>
    cases hu : step s with
    | next u =>
      rw [State.runSteps_succ n hu] at h
      exact ih (hstep s u hs hu) h
    | fault r => rw [State.runSteps_fault n hu] at h; cases h
    | refused r => rw [State.runSteps_refused n hu] at h; cases h

end Sys2Proof.Machine
end

