-- ==== Sys2Proof/Machine/Assembler.lean ====
section
/-! DEFINITION. The assembler's text (30_encoding.md R81 to R83): one statement per line, `;` starts a comment. The bytes
of a statement are in Decode.lean. No step of CORE uses this file. What R81 leaves open of the spelling is log 17. -/

namespace Sys2Proof.Machine

/-- White space inside a line. -/
def isBlank (c : Char) : Bool := c == ' ' || c == '\t' || c == '\r'

/-- The pieces of a text between the characters that `sep` accepts; `cur` is the piece being read, reversed. -/
def pieces (sep : Char → Bool) (cur : List Char) : List Char → List (List Char)
  | [] => [cur.reverse]
  | c :: cs => if sep c then cur.reverse :: pieces sep [] cs else pieces sep (c :: cur) cs

/-- The lines of a text. -/
def linesOf (text : List Char) : List (List Char) := pieces (· == '\n') [] text

/-- The words of a line, its comment left out (30_encoding.md R81). -/
def wordsOf (line : List Char) : List (List Char) :=
  (pieces isBlank [] (line.takeWhile (· != ';'))).filter fun w => !w.isEmpty

/-- The value of a digit, decimal or hexadecimal. -/
def digitOf (c : Char) : Option Nat :=
  if '0' ≤ c ∧ c ≤ '9' then some (c.toNat - 48)
  else if 'A' ≤ c ∧ c ≤ 'F' then some (c.toNat - 55)
  else if 'a' ≤ c ∧ c ≤ 'f' then some (c.toNat - 87)
  else none

/-- Digits of base `base` read on top of `acc`. -/
def digitsOf (base acc : Nat) : List Char → Option Nat
  | [] => some acc
  | c :: cs =>
    match digitOf c with
    | some d => if d < base then digitsOf base (acc * base + d) cs else none
    | none => none

/-- A non-empty numeral of base `base`. -/
def numeral (base : Nat) : List Char → Option Nat
  | [] => none
  | c :: cs => digitsOf base 0 (c :: cs)

/-- A natural in decimal or 0x-hex (30_encoding.md R81). -/
def numberOf : List Char → Option Nat
  | '0' :: 'x' :: ds => numeral 16 ds
  | ds => numeral 10 ds

/-- One byte of a `.BYTES` statement, in hexadecimal (log 17). -/
def byteOf (w : List Char) : Option Byte :=
  match numeral 16 w with
  | some v => if v < 256 then some (BitVec.ofNat 8 v) else none
  | none => none

/-- All the bytes of a `.BYTES` statement. -/
def bytesOf : List (List Char) → Option (List Byte)
  | [] => some []
  | w :: ws =>
    match byteOf w, bytesOf ws with
    | some b, some bs => some (b :: bs)
    | _, _ => none

/-- The opcode of a mnemonic that takes a payload (30_encoding.md R81). -/
def mnemonicOpcode (m : List Char) : Option Nibble :=
  if m = ['S', 'U', 'B'] then some 0
  else if m = ['B', 'A', 'N', 'K'] then some 1
  else if m = ['C', 'R', 'C', 'C', 'H', 'K'] then some 2
  else if m = ['R', 'S', 'V', '3'] then some 3
  else if m = ['R', 'S', 'V', '4'] then some 4
  else if m = ['F', 'R', 'E', 'Q'] then some 5
  else if m = ['S', 'E', 'T', 'W'] then some 6
  else if m = ['S', 'E', 'T', 'H'] then some 7
  else if m = ['S', 'E', 'T', 'O', 'F', 'F'] then some 8
  else if m = ['F', 'L', 'A', 'G', 'S'] then some 9
  else if m = ['O', 'P', '1', '0'] then some 10
  else if m = ['O', 'P', '1', '1'] then some 11
  else if m = ['O', 'P', '1', '2'] then some 12
  else if m = ['O', 'P', '1', '3'] then some 13
  else if m = ['O', 'P', '1', '4'] then some 14
  else if m = ['O', 'P', '1', '5'] then some 15
  else none

/-- The payload of a pseudo-instruction, which is a `SUB` (30_encoding.md R83). -/
def pseudoPayload (m : List Char) : Option Nat :=
  if m = ['C', 'R', 'A', 'M'] then some 1
  else if m = ['B', 'R', 'A', 'M'] then some 3
  else if m = ['C', 'R', 'C', 'R', 'S', 'T'] then some 5
  else if m = ['W', 'A', 'K', 'E', 'U', 'P'] then some 6
  else none

/-- The length that a `.Ln` suffix forces, n = 0 to 15 (30_encoding.md R82): the outer `none` is a bad suffix, the inner
one no suffix. -/
def forcedLen : List Char → Option (Option Nibble)
  | [] => some none
  | '.' :: 'L' :: ds =>
    match numeral 10 ds with
    | some n => if n ≤ 15 then some (some (BitVec.ofNat 4 n)) else none
    | none => none
  | _ => none

/-- A command statement: its first word, a mnemonic with an optional suffix, and its operands (30_encoding.md R81 to R83). -/
def commandOf (w : List Char) (operands : List (List Char)) : Option AsmStatement :=
  match forcedLen (w.dropWhile (· != '.')) with
  | none => none
  | some force =>
    match pseudoPayload (w.takeWhile (· != '.')), mnemonicOpcode (w.takeWhile (· != '.')), operands with
    | some p, _, [] => some (.command 0 p force)
    | none, some op, [v] => (numberOf v).map fun p => .command op p force
    | _, _, _ => none

/-- A line's statement: the outer `none` is a line that is no statement, the inner one an empty line. -/
def statementOf (line : List Char) : Option (Option AsmStatement) :=
  match wordsOf line with
  | [] => some none
  | w :: ws =>
    if w = ['P', 'R', 'E', 'A', 'M', 'B', 'L', 'E'] then (if ws.isEmpty then some (some .preamble) else none)
    else if w = ['.', 'B', 'Y', 'T', 'E', 'S'] then (bytesOf ws).map fun bs => some (.bytes bs)
    else (commandOf w ws).map some

/-- The statements of a program's lines; `none` where a line is no statement. -/
def statementsOf : List (List Char) → Option (List AsmStatement)
  | [] => some []
  | line :: rest =>
    match statementOf line, statementsOf rest with
    | some none, some as => some as
    | some (some a), some as => some (a :: as)
    | _, _ => none

/-- The bytes of a program's text; `none` is an assembly error (30_encoding.md R81 to R83). -/
def assembleText (text : List Char) : Option (List Byte) :=
  match statementsOf (linesOf text) with
  | some as => assemble as
  | none => none

end Sys2Proof.Machine
end

