-- ==== Sys2Proof/Tests/Slice0.lean ====
section
/-! SUPPORT. Tests of one step, with expected results from 95_test_vectors.md (vector ids in the comments), tests of
decoding by words written out from 30_encoding.md, ill-formed terms that WellFormed refuses, and for every obligation
with hypotheses a concrete state and operands that meet them. -/

namespace Sys2Proof.Tests

open Sys2Proof Sys2Proof.Machine Sys2Proof.Claims

/-! ### WellFormed refuses -/

theorem test_wellFormed_refuses_a_payload_too_long_for_its_length :
    Instr.wellFormed (.cram 0) = false ∧ Instr.wellFormed (.bram 0) = false ∧ Instr.wellFormed (.crcrst 0) = false ∧
    Instr.wellFormed (.wakeup 0) = false ∧ Instr.wellFormed (.subUnknown 1 256) = false ∧
    Instr.wellFormed (.bank 0 1) = false ∧ Instr.wellFormed (.crcchk 1 256) = false ∧
    Instr.wellFormed (.rsv3 1 256) = false ∧ Instr.wellFormed (.rsv4 1 256) = false ∧
    Instr.wellFormed (.freq 1 256) = false ∧ Instr.wellFormed (.setw 1 256) = false ∧
    Instr.wellFormed (.seth 1 256) = false ∧ Instr.wellFormed (.setoff 2 65536) = false ∧
    Instr.wellFormed (.flags 0 33) = false := by decide

theorem test_wellFormed_refuses_an_undefined_opcode_with_a_payload_too_long :
    Instr.wellFormed (.op10 0 1) = false ∧ Instr.wellFormed (.op11 0 1) = false ∧ Instr.wellFormed (.op12 0 1) = false ∧
    Instr.wellFormed (.op13 0 1) = false ∧ Instr.wellFormed (.op14 0 1) = false ∧
    Instr.wellFormed (.op15 15 (2 ^ 120)) = false := by decide

theorem test_wellFormed_refuses_a_named_value_as_unknown :
    Instr.wellFormed (.subUnknown 1 1) = false ∧ Instr.wellFormed (.subUnknown 1 3) = false ∧
    Instr.wellFormed (.subUnknown 1 5) = false ∧ Instr.wellFormed (.subUnknown 1 6) = false := by decide

theorem test_wellFormed_accepts :
    Instr.wellFormed .preamble = true ∧ Instr.wellFormed (.bank 15 (2 ^ 120 - 1)) = true ∧
    Instr.wellFormed (.subUnknown 0 0) = true ∧ Instr.wellFormed (.cram 1) = true := by decide

/-! ### Decoding: one word for every constructor, from 30_encoding.md R70 to R75 -/

/-- OP is bits 7:4, L is bits 3:0 (R71). -/
theorem test_decode_setw : decode .run [0b0110_0010, 0b0000_0000, 0b0010_0111] = .ok (.setw 2 39, []) := by rfl

theorem test_decode_preamble :
    decode .sync [0b0111_1110, 0b1010_1010, 0b1001_1001, 0b0111_1110, 0xFF] = .ok (.preamble, [0xFF]) := by rfl

theorem test_decode_cram : decode .run [0b0000_0001, 0b0000_0001] = .ok (.cram 1, []) := by rfl

theorem test_decode_bram : decode .run [0b0000_0001, 0b0000_0011] = .ok (.bram 1, []) := by rfl

theorem test_decode_crcrst : decode .run [0b0000_0001, 0b0000_0101] = .ok (.crcrst 1, []) := by rfl

theorem test_decode_wakeup : decode .run [0b0000_0010, 0b0000_0000, 0b0000_0110] = .ok (.wakeup 2, []) := by rfl

/-- The whole payload selects, not its low byte (B15). -/
theorem test_decode_subUnknown : decode .run [0b0000_0010, 0b0000_0001, 0b0000_0001] = .ok (.subUnknown 2 257, []) := by
  rfl

theorem test_decode_bank : decode .run [0b0001_0000, 0xAB] = .ok (.bank 0 0, [0xAB]) := by rfl

theorem test_decode_crcchk : decode .run [0b0010_0010, 0x12, 0x34] = .ok (.crcchk 2 0x1234, []) := by rfl

theorem test_decode_rsv3 : decode .run [0b0011_0001, 0x12] = .ok (.rsv3 1 0x12, []) := by rfl

theorem test_decode_rsv4 : decode .run [0b0100_0001, 0x07] = .ok (.rsv4 1 7, []) := by rfl

theorem test_decode_freq : decode .run [0b0101_0001, 0x02] = .ok (.freq 1 2, []) := by rfl

/-- The bytes of the preamble are ordinary commands in RUN: 7E is SETH with L = 14 (R80). -/
theorem test_decode_seth :
    decode .run ([0b0111_1110] ++ List.replicate 13 0x00 ++ [0x08]) = .ok (.seth 14 8, []) := by rfl

theorem test_decode_setoff : decode .run [0b1000_0010, 0x01, 0x00] = .ok (.setoff 2 256, []) := by rfl

theorem test_decode_flags : decode .run [0b1001_0001, 0x21] = .ok (.flags 1 33, []) := by rfl

theorem test_decode_op10 : decode .run [0b1010_0001, 0x55] = .ok (.op10 1 0x55, []) := by rfl

theorem test_decode_op11 : decode .run [0b1011_0000] = .ok (.op11 0 0, []) := by rfl

theorem test_decode_op12 : decode .run [0b1100_0010, 0x01, 0x00] = .ok (.op12 2 256, []) := by rfl

theorem test_decode_op13 : decode .run [0b1101_0000] = .ok (.op13 0 0, []) := by rfl

theorem test_decode_op14 : decode .run [0b1110_0001, 0xFF] = .ok (.op14 1 255, []) := by rfl

theorem test_decode_op15 : decode .run [0b1111_0000] = .ok (.op15 0 0, []) := by rfl

theorem test_decode_rejects_by_name :
    decode .run [] = .error .noCommandByte ∧ decode .run [0x6F, 0, 0, 0, 1] = .error .payloadCutShort ∧
    decode .sync [0x7E, 0xAA, 0x99] = .error .preambleCutShort ∧
    decode .sync [0x7E, 0x7E, 0xAA, 0x99] = .error .notThePreamble := by
  refine ⟨rfl, rfl, rfl, rfl⟩

/-- The encoder writes the bytes of R83 and R82. -/
theorem test_encode :
    encode (.wakeup 2) = [0x02, 0x00, 0x06] ∧ encode (.setw 2 39) = [0x62, 0x00, 0x27] ∧
    encode .preamble = [0x7E, 0xAA, 0x99, 0x7E] ∧ encode (.setoff 1 0) = [0x81, 0x00] := by decide

/-- `SETW 39` is 61 27, `SETOFF 0` is 80, `.L0` of 1 is an assembly error (R82). -/
theorem test_assemble :
    assemble [.command 6 39 none, .command 8 0 none, .command 0 6 (some 2)] = some [0x61, 0x27, 0x80, 0x02, 0x00, 0x06] ∧
    assemble [.command 1 1 (some 0)] = none := by decide

/-- Lines of P2 and P1, and R82's example of a forced length. -/
theorem test_assemble_text :
    assembleText ("        .BYTES 00 7E        ; padding\n  PREAMBLE ; 2..5\n FLAGS 33\n SETOFF.L1 0\n CRCCHK 0x1234\n WAKEUP.L2".toList) =
      some [0x00, 0x7E, 0x7E, 0xAA, 0x99, 0x7E, 0x91, 0x21, 0x81, 0x00, 0x22, 0x12, 0x34, 0x02, 0x00, 0x06] := by decide

/-- A payload that does not fit, a second operand, and an unknown mnemonic are assembly errors. -/
theorem test_assemble_text_errors :
    assembleText "BANK.L0 1".toList = none ∧ assembleText "BANK 1 2".toList = none ∧ assembleText "NOP".toList = none := by
  decide

theorem test_table_words :
    decodeTableWord 32 0x7EAA997E = some .preamble ∧ decodeTableWord 8 0x10 = some (.bank 0 0) ∧
    decodeTableWord 8 0x62 = some (.setw 2 0) ∧ decodeTableWord 8 0x00 = some (.subUnknown 0 0) ∧
    decodeTableWord 16 0x0101 = some (.cram 1) := by decide

/-! ### One step -/

/-- What `f` reads after one step. -/
def after {α : Type} (s : State) (f : State → α) : Option α :=
  match step s with
  | .next t => some (f t)
  | .fault _ => none
  | .refused _ => none

/-- SYNC with `bs` in INPUT, `n` of them consumed, and the given window. -/
def inSync (bs : List Byte) (n : Nat) (w : BitVec 32) : State :=
  { State.reset with input := bs, streamOffset := n, window := w }

/-- RUN/CMD after the preamble at index 0, with `bs` after it. -/
def inRun (bs : List Byte) : State :=
  { State.reset with
    top := .run, streamOffset := 4, syncBytes := some 4, window := 0x7EAA997E#32,
    input := [0x7E, 0xAA, 0x99, 0x7E] ++ bs }

/-- The same, with a command of at least one payload byte consumed but for its last byte `b`; `got` are the payload
bytes consumed, of value `p`. -/
def lastByte (op len : Nibble) (got : List Byte) (p : Nat) (b : Byte) : State :=
  { inRun ((op ++ len) :: (got ++ [b])) with
    phase := .payload, streamOffset := 5 + got.length, cmdOffset := some 4, cmdOp := op, cmdLen := len, payRemain := 1,
    payload := p }

/-- The error record with the position. -/
def record (t : State) := (t.errorRecord, t.streamOffset)

/-- BANK 0, WIDTH `w`, HEIGHT `h`, OFFSET `o`. -/
def withGeometry (w h o : Nat) (s : State) : State :=
  { s with bank := some 0, width := some w, height := some h, offset := some o }

/-- A BRAM block of width `w` and height `h` at row `o`, `n` of its data bytes consumed, the byte `b` offered. -/
def inBlock (w h o n : Nat) (b : Byte) : State :=
  withGeometry w h o
    { inRun ([0x01, 0x03] ++ List.replicate n 0x00 ++ [b]) with
      phase := .data, streamOffset := 6 + n, cmdOffset := some 4, cmdOp := 0, cmdLen := 1, payload := 3,
      blkStore := .bram, blkBank := 0, blkW := w, blkH := h, blkOff := o, blkBytes := w * h / 8, blkDone := n,
      bramExtW := some w, bramExtH := some (o + h) }

/-- A trailer with `n` of its bytes consumed, the byte `b` offered. -/
def inTrailer (n : Nat) (nz : Bit) (b : Byte) : State :=
  { inBlock 8 0 0 0 b with phase := .trailer, trlDone := n, trlNonzero := nz }

/-- SY3, the last byte of 00 7E 7E AA 99 7E: SYNC_BYTES 6. -/
theorem test_preamble_matches :
    after (inSync [0x00, 0x7E, 0x7E, 0xAA, 0x99, 0x7E] 5 0x7E7EAA99#32)
      (fun t => (t.top, t.phase, t.syncBytes, t.streamOffset, t.window)) =
        some (.run, .cmd, some 6, 6, 0x7EAA997E#32) := by decide

/-- SY7, the last byte of 12 34 56 78 9A: the shift is truncated to 32 bits. -/
theorem test_preamble_window_wraps :
    after (inSync [0x12, 0x34, 0x56, 0x78, 0x9A] 4 0x12345678#32) (fun t => (t.top, t.window)) =
      some (.sync, 0x3456789A#32) := by decide

/-- B2 (BRAM, W 16, H 1, O 3) with the store exchanged: the extent is (16, 4), BLK_BYTES 2, the other extent stays. -/
theorem test_cram_opens_a_block :
    after (withGeometry 16 1 3 (lastByte 0 1 [] 0 0x01))
      (fun t => ((t.phase, t.blkStore, t.blkBytes), t.cramExtW, t.cramExtH, t.bramExtW)) =
        some ((.data, .cram, 2), some 16, some 4, none) := by decide

/-- B4: W x H = 3 is MalformedBlockSize, no extent is written. -/
theorem test_cram_malformed :
    after (withGeometry 3 1 0 (lastByte 0 1 [] 0 0x01)) (fun t => (record t, t.cramExtW)) =
      some ((⟨.malformedBlockSize, some 5, some 4, some 0, some 1, some (.run, .payload)⟩, 6), none) := by decide

/-- B2: BRAM_EXT (16, 4). -/
theorem test_bram_opens_a_block :
    after (withGeometry 16 1 3 (lastByte 0 1 [] 0 0x03))
      (fun t => ((t.phase, t.blkStore, t.blkBytes), t.bramExtW, t.bramExtH, t.cramExtW)) =
        some ((.data, .bram, 2), some 16, some 4, none) := by decide

/-- B9: no geometry is the model fault, STREAM_OFFSET 6. -/
theorem test_bram_unset_geometry :
    after (lastByte 0 1 [] 0 0x03) (fun t => (t.top, t.faultReason, t.streamOffset)) =
      some (.modelFault, .geometryUnset, 6) := by decide

/-- B5: HEIGHT 0 goes straight to the trailer, CRAM_EXT (1, 5). -/
theorem test_empty_block :
    after (withGeometry 1 0 5 (lastByte 0 1 [] 0 0x01)) (fun t => (t.phase, t.cramExtW, t.cramExtH, t.blkBytes)) =
      some (.trailer, some 1, some 5, 0) := by decide

/-- B11. -/
theorem test_crcrst : after (lastByte 0 1 [] 0 0x05) (fun t => (t.crc, t.phase)) = some (some 0xFFFF#16, .cmd) := by decide

/-- B12: TERMINATED, STREAM_OFFSET 6. -/
theorem test_wakeup : after (lastByte 0 1 [] 0 0x06) (fun t => (t.top, t.streamOffset)) = some (.terminated, 6) := by
  decide

/-- B17. -/
theorem test_wakeup_leading_zero : after (lastByte 0 2 [0x00] 0 0x06) (fun t => t.top) = some .terminated := by decide

/-- B13. -/
theorem test_subUnknown_zero :
    after (inRun [0x00]) record =
      some (⟨.unknownSubcommand, some 4, some 4, some 0, some 0, some (.run, .cmd)⟩, 5) := by decide

/-- B16: 262 is not 6. -/
theorem test_subUnknown_whole_value :
    after (lastByte 0 2 [0x01] 1 0x06) record =
      some (⟨.unknownSubcommand, some 6, some 4, some 0, some 262, some (.run, .payload)⟩, 7) := by decide

/-- O1. -/
theorem test_bank : after (lastByte 1 1 [] 0 0x01) (fun t => (t.bank, t.phase)) = some (some 1, .cmd) := by decide

/-- F2: BANK 0x12345678. -/
theorem test_bank_four_bytes :
    after (lastByte 1 4 [0x12, 0x34, 0x56] 0x123456 0x78) (fun t => (t.bank, t.streamOffset)) =
      some (some 0x12345678, 9) := by decide

/-- O3: CRCCHK changes nothing but the framing registers. -/
theorem test_crcchk :
    after (lastByte 2 2 [0xAB] 0xAB 0xCD) (fun t => t.configuration) =
      some { (lastByte 2 2 [0xAB] 0xAB 0xCD).configuration with streamOffset := 7 } := by decide

/-- O4. -/
theorem test_rsv3 :
    after (inRun [0x30]) record = some (⟨.unknownCommand, some 4, some 4, some 3, some 0, some (.run, .cmd)⟩, 5) := by
  decide

/-- O5. -/
theorem test_rsv4 :
    after (lastByte 4 1 [] 0 0x07) record =
      some (⟨.unknownCommand, some 5, some 4, some 4, some 7, some (.run, .payload)⟩, 6) := by decide

/-- O7, O9. -/
theorem test_freq_low_high :
    after (inRun [0x50]) (fun t => t.freq) = some .low ∧ after (lastByte 5 1 [] 0 0x02) (fun t => t.freq) = some .high := by
  decide

/-- O8, O11. -/
theorem test_freq_medium_unknown :
    after (lastByte 5 1 [] 0 0x01) (fun t => t.freq) = some .medium ∧
    after (lastByte 5 1 [] 0 0x03) (fun t => t.freq) = some (.unknown 3) := by decide

/-- S2: WIDTH 40, STREAM_OFFSET 7. -/
theorem test_setw :
    after (lastByte 6 2 [0x00] 0 0x27) (fun t => (t.width, t.streamOffset)) = some (some 40, 7) := by decide

/-- F7: WIDTH 2^120, no truncation. -/
theorem test_setw_largest :
    after (lastByte 6 15 (List.replicate 14 0xFF) (2 ^ 112 - 1) 0xFF) (fun t => t.width) = some (some (2 ^ 120)) := by decide

/-- O15, O16: no plus one. -/
theorem test_seth :
    after (inRun [0x70]) (fun t => t.height) = some (some 0) ∧
    after (lastByte 7 1 [] 0 0xFF) (fun t => t.height) = some (some 255) := by decide

/-- O18. -/
theorem test_setoff : after (lastByte 8 2 [0x01] 1 0x00) (fun t => t.offset) = some (some 256) := by decide

/-- O20, O21, O22: bit 0 is NOSLEEP, bit 5 is WARMBOOT. -/
theorem test_flags_legal :
    after (lastByte 9 1 [] 0 0x01) (fun t => (t.warmboot, t.nosleep)) = some (some false, some true) ∧
    after (lastByte 9 1 [] 0 0x20) (fun t => (t.warmboot, t.nosleep)) = some (some true, some false) ∧
    after (lastByte 9 1 [] 0 0x21) (fun t => (t.warmboot, t.nosleep)) = some (some true, some true) := by decide

/-- O24: 289 is illegal although its low byte is 33. -/
theorem test_flags_illegal :
    after (lastByte 9 2 [0x01] 1 0x21) (fun t => (record t, t.warmboot)) =
      some ((⟨.invalidFeatureFlags, some 6, some 4, some 9, some 289, some (.run, .payload)⟩, 7), none) := by decide

/-- O31. -/
theorem test_op10 :
    after (lastByte 10 1 [] 0 0x55) record =
      some (⟨.unknownCommand, some 5, some 4, some 10, some 0x55, some (.run, .payload)⟩, 6) := by decide

/-- O26. -/
theorem test_op11 :
    after (inRun [0xB0]) record = some (⟨.unknownCommand, some 4, some 4, some 11, some 0, some (.run, .cmd)⟩, 5) := by
  decide

/-- O27. -/
theorem test_op12 :
    after (lastByte 12 2 [0x01] 1 0x00) record =
      some (⟨.unknownCommand, some 6, some 4, some 12, some 256, some (.run, .payload)⟩, 7) := by decide

/-- O28. -/
theorem test_op13 :
    after (inRun [0xD0]) record = some (⟨.unknownCommand, some 4, some 4, some 13, some 0, some (.run, .cmd)⟩, 5) := by
  decide

/-- O29. -/
theorem test_op14 :
    after (lastByte 14 1 [] 0 0xFF) record =
      some (⟨.unknownCommand, some 5, some 4, some 14, some 255, some (.run, .payload)⟩, 6) := by decide

/-- O30. -/
theorem test_op15 :
    after (inRun [0xF0]) record = some (⟨.unknownCommand, some 4, some 4, some 15, some 0, some (.run, .cmd)⟩, 5) := by
  decide

/-! ### Steps that are no instruction -/

/-- F6, the command byte 6F: 15 payload bytes to come. -/
theorem test_command_byte_opens :
    after (inRun [0x6F, 0x00]) (fun t => ((t.phase, t.cmdOp, t.cmdLen), t.payRemain, t.cmdOffset, t.streamOffset)) =
      some ((.payload, 6, 15), 15, some 4, 5) := by decide

/-- F8: EOS in a payload records the opcode and no payload. -/
theorem test_eos_in_payload :
    after { lastByte 1 1 [] 0 0x00 with input := [0x7E, 0xAA, 0x99, 0x7E, 0x11] } record =
      some (⟨.unexpectedEndOfStream, some 5, some 4, some 1, none, some (.run, .payload)⟩, 5) := by decide

/-- F9: EOS at a command byte. -/
theorem test_eos_at_command :
    after (inRun []) record =
      some (⟨.unexpectedEndOfStream, some 4, none, none, none, some (.run, .cmd)⟩, 4) := by decide

/-- SY5: the record's phase holds TOP and PHASE; the spec writes SYNC alone (log 10). -/
theorem test_eos_in_sync :
    after State.reset record = some (⟨.unexpectedEndOfStream, some 0, none, none, none, some (.sync, .cmd)⟩, 0) := by decide

/-- S6, B1: 10110000 fills row 0 as 1, 0, 1, 1, 0, 0, 0, 0 and no other cell. -/
theorem test_data_bits_most_significant_first :
    after (inBlock 8 8 0 0 0b10110000) (fun t => (List.range 9).map fun x => t.memRead .bram ⟨0, x, 0⟩) =
      some [some true, some false, some true, some true, some false, some false, some false, some false, none] := by
  decide

/-- B3, the first byte: with WIDTH 3 it fills rows 0 and 1 and two cells of row 2. -/
theorem test_data_rows_of_three :
    after (inBlock 3 8 0 0 0xFF)
      (fun t => (t.memRead .bram ⟨0, 2, 1⟩, t.memRead .bram ⟨0, 1, 2⟩, t.memRead .bram ⟨0, 2, 2⟩, t.bramStore.length)) =
        some (some true, some true, none, 8) := by decide

/-- B2, the second byte: bit 0 goes to x = 15 of row 3, and the block's data is complete. -/
theorem test_data_last_byte :
    after (inBlock 16 1 3 1 0x01) (fun t => (t.memRead .bram ⟨0, 15, 3⟩, t.memRead .bram ⟨0, 14, 3⟩, t.phase, t.blkDone)) =
      some (some true, some false, .trailer, 2) := by decide

/-- B6, trailers 00 01 and 01 00, the second byte: one warning. -/
theorem test_trailer_warns_once :
    after (inTrailer 1 false 0x01) (fun t => (t.trailerWarnings, t.phase)) = some (1, .cmd) ∧
    after (inTrailer 1 true 0x00) (fun t => (t.trailerWarnings, t.phase)) = some (1, .cmd) ∧
    after (inTrailer 1 false 0x00) (fun t => (t.trailerWarnings, t.phase)) = some (0, .cmd) := by decide

/-- A table word placed after reset runs in the very next step. -/
theorem test_table_word_runs :
    after (State.reset.withFetchWord 8 0x62) (fun t => t.width) = some (some 1) ∧
    after (State.reset.withFetchWord 32 0x7EAA997E) (fun t => (t.top, t.syncBytes)) = some (.run, some 4) ∧
    after (State.reset.withFetchWord 8 0x90) (fun t => t.nosleep) = some (some false) := by decide

/-- ERR_CODE is 3 after UnknownSubcommand (B13, R180), 0 after WAKEUP (B12), and not read in RUN. -/
theorem test_err_code_signal :
    after (inRun [0x00]) (fun t => (t.doneSignal, t.failedSignal, t.errCodeSignal)) = some (false, true, some 3) ∧
    after (lastByte 0 1 [] 0 0x06) (fun t => (t.doneSignal, t.failedSignal, t.errCodeSignal)) =
      some (true, false, some 0) ∧
    after (inRun [0x10]) (fun t => t.errCodeSignal) = some none := by decide

/-! ### Witnesses: the hypotheses of the obligations can be met, each clause at a boundary of its range -/

/-- RestartKeepsNothingOfTheDecode. -/
theorem witness_restart : (inRun [0x30]).storeLimit = State.reset.storeLimit := rfl

/-- DecodeOfEncodeIsTheInstruction. -/
theorem witness_decode_of_encode :
    Instr.WellFormed .preamble ∧ Instr.WellFormed (.bank 0 0) ∧ Instr.WellFormed (.bank 15 (2 ^ 120 - 1)) ∧
    Instr.WellFormed (.wakeup 15) := by decide

/-- EncodeOfDecodeIsTheBytes. -/
theorem witness_encode_of_decode :
    decode .run [0x02, 0x00, 0x06, 0xDE] = .ok (.wakeup 2, [0xDE]) ∧
    decode .sync [0x7E, 0xAA, 0x99, 0x7E] = .ok (.preamble, []) := ⟨rfl, rfl⟩

/-- PayloadIsTheBigEndianSum, F3: fifteen bytes FF are 2^120 - 1. -/
theorem witness_longest_payload :
    (List.replicate 15 (0xFF : Byte)).length ≤ 15 ∧ beValue (List.replicate 15 0xFF) = 2 ^ 120 - 1 := by decide

/-- LeadingZeroBytesKeepThePayload, F11. -/
theorem witness_leading_zeros : (15 : Nibble).toNat = 14 + [(0x06 : Byte)].length ∧ (0 : Nibble).toNat = 0 + 0 := by decide

/-- AssemblerEmitsTheShortestCommand: the least and the largest payload. -/
theorem witness_assembler :
    0 < 2 ^ 120 ∧ 2 ^ 120 - 1 < 2 ^ 120 ∧ defaultLen 0 = some 0 ∧ defaultLen (2 ^ 120 - 1) = some 15 := by decide

/-- StepRunsTheDecodedInstruction, the clause of SYNC. -/
theorem witness_step_runs_preamble :
    (inSync [0x7E, 0xAA, 0x99, 0x7E] 3 0x007EAA99#32).nextByte = some 0x7E ∧
    ((0x007EAA99#32 <<< 8) ||| (0x7E : Byte).setWidth 32) = 0x7EAA997E#32 := by decide

/-- StepRunsTheDecodedInstruction, the clause of a command byte alone. -/
theorem witness_step_runs_command_byte :
    (inRun [0x60]).nextByte = some 0x60 ∧ (inRun [0x60]).top = .run ∧ (inRun [0x60]).phase = .cmd ∧
    decode .run [0x60] = .ok (.setw 0 0, []) := ⟨rfl, rfl, rfl, rfl⟩

/-- StepRunsTheDecodedInstruction, the clause of a last payload byte. -/
theorem witness_step_runs_last_payload_byte :
    (lastByte 6 2 [0x00] 0 0x27).nextByte = some 0x27 ∧ (lastByte 6 2 [0x00] 0 0x27).payRemain = 1 ∧
    (lastByte 6 2 [0x00] 0 0x27).payload = beValue [0x00] ∧
    decode .run (cmdByte 6 2 :: ([0x00] ++ [0x27])) = .ok (.setw 2 39, []) := ⟨rfl, rfl, rfl, rfl⟩

/-- CommandBytesInInputRunAsDecoded, with L = 2 and with L = 0. -/
theorem witness_command_in_input :
    (inRun [0x62, 0x00, 0x27, 0x91]).top = .run ∧ (inRun [0x62, 0x00, 0x27, 0x91]).phase = .cmd ∧
    decode .run ((inRun [0x62, 0x00, 0x27, 0x91]).input.drop (inRun [0x62, 0x00, 0x27, 0x91]).streamOffset) =
      .ok (.setw 2 39, [0x91]) ∧
    decode .run ((inRun [0x00]).input.drop (inRun [0x00]).streamOffset) = .ok (.subUnknown 0 0, []) :=
  ⟨rfl, rfl, rfl, rfl⟩

/-- PlacedTableWordRunsNext, in SYNC and in RUN. -/
theorem witness_table_word :
    decodeTableWord 32 0x7EAA997E = some .preamble ∧ decodeTableWord 8 0x6F = some (.setw 15 0) := by decide

/-- SyncByteShiftsOrMatches, the clause of a byte that does not match. -/
theorem witness_sync_shift :
    (inSync [0x00] 0 0#32).top = .sync ∧ (inSync [0x00] 0 0#32).nextByte = some 0x00 ∧
    after (inSync [0x00] 0 0#32) (fun t => (t.top, t.streamOffset)) = some (.sync, 1) := by decide

/-- SynchronizerStopsAtTheFirstPreamble, SY3 (p = 2) and SY1 (p = 0). -/
theorem witness_first_preamble :
    preambleAt [0x00, 0x7E, 0x7E, 0xAA, 0x99, 0x7E] 2 ∧
    (∀ q < 2, ¬ preambleAt [0x00, 0x7E, 0x7E, 0xAA, 0x99, 0x7E] q) ∧ preambleAt [0x7E, 0xAA, 0x99, 0x7E] 0 ∧
    (∀ q < 0, ¬ preambleAt [0x7E, 0xAA, 0x99, 0x7E] q) ∧
    (inSync [0x00, 0x7E, 0x7E, 0xAA, 0x99, 0x7E] 0 0#32).top = .sync := by
  unfold preambleAt; decide

/-- NoResynchronisation: a step in RUN. -/
theorem witness_no_resynchronisation :
    (inRun [0x7E]).top ≠ .sync ∧ ∃ t, step (inRun [0x7E]) = .next t := ⟨by decide, _, rfl⟩

/-- FramingOpensShiftsAndDispatches: L = 0, L = 15, the last payload byte, and one before it. -/
theorem witness_framing :
    (inRun [0x60]).nextByte = some 0x60 ∧ (inRun [0x6F]).nextByte = some 0x6F ∧
    (lastByte 6 2 [0x00] 0 0x27).nextByte = some 0x27 ∧ 1 ≤ (lastByte 6 2 [0x00] 0 0x27).payRemain ∧
    1 ≤ { lastByte 6 2 [0x00] 0 0x27 with payRemain := 15 }.payRemain ∧
    (lastByte 6 2 [0x00] 0 0x27).top = .run ∧ (lastByte 6 2 [0x00] 0 0x27).phase = .payload := by decide

/-- EveryConsumedByteIsCountedOnce: a byte, an EOS, and a quiescent CORE with a byte offered. -/
theorem witness_counting :
    after (inRun [0x30]) (fun t => t.streamOffset) = some 5 ∧ after (inRun []) (fun t => t.streamOffset) = some 4 ∧
    after { inRun [0x30] with top := .terminated } (fun t => t.streamOffset) = some 4 := by decide

/-- NoStepWritesInput, EveryStepKeepsStoresCanonical, ExtentsNeverShrink: a data byte is consumed. -/
theorem witness_data_step :
    (inBlock 8 8 0 0 0xB0).StoresCanonical ∧
    ∃ t, step (inBlock 8 8 0 0 0xB0) = .next t ∧ t.bramStore.length = 8 := ⟨⟨rfl, rfl⟩, _, rfl, rfl⟩

/-- EndOfStreamAtCommandAndInData, its two clauses. -/
theorem witness_eos_command_data :
    (inRun []).top = .run ∧ (inRun []).phase = .cmd ∧ (inRun []).nextByte = none ∧
    { inBlock 8 8 0 0 0 with input := [] }.top = .run ∧ { inBlock 8 8 0 0 0 with input := [] }.phase = .data ∧
    { inBlock 8 8 0 0 0 with input := [] }.nextByte = none := by decide

/-- EndOfStreamInScanPayloadAndTrailer, its three clauses. -/
theorem witness_eos_scan_payload_trailer :
    State.reset.top = .sync ∧ State.reset.nextByte = none ∧ { lastByte 1 1 [] 0 0 with input := [] }.top = .run ∧
    { lastByte 1 1 [] 0 0 with input := [] }.phase = .payload ∧
    { lastByte 1 1 [] 0 0 with input := [] }.nextByte = none ∧ { inTrailer 0 false 0 with input := [] }.top = .run ∧
    { inTrailer 0 false 0 with input := [] }.phase = .trailer ∧ { inTrailer 0 false 0 with input := [] }.nextByte = none := by
  decide

/-- FlagsWritesBothOrFails, the failing clause beside each legal value. -/
theorem witness_illegal_flags : ∀ p ∈ [2, 31, 34, 289], p ∉ [0, 1, 32, 33] := by decide

/-- UnknownSubcommandFails, beside each named value. -/
theorem witness_unknown_subcommand : ∀ p ∈ [0, 2, 4, 7, 2 ^ 120 - 1], p ∉ [1, 3, 5, 6] := by decide

/-- BlockStartLatchesAndGrowsTheExtent, an empty block and one of eight cells. -/
theorem witness_block_start :
    (withGeometry 1 0 5 (inRun [])).bank = some 0 ∧ (withGeometry 1 0 5 (inRun [])).width = some 1 ∧
    (withGeometry 1 0 5 (inRun [])).height = some 0 ∧ (withGeometry 1 0 5 (inRun [])).offset = some 5 ∧
    1 * 0 % 8 = 0 ∧ (withGeometry 8 1 0 (inRun [])).width = some 8 ∧ 8 * 1 % 8 = 0 := by decide

/-- BlockStartRefusesBadGeometry: seven cells, and each geometry register unset. -/
theorem witness_bad_geometry :
    (withGeometry 7 1 0 (inRun [])).width = some 7 ∧ 7 * 1 % 8 ≠ 0 ∧
    { withGeometry 8 1 0 (inRun []) with bank := none }.bank = none ∧
    { withGeometry 8 1 0 (inRun []) with width := none }.width = none ∧
    { withGeometry 8 1 0 (inRun []) with height := none }.height = none ∧
    { withGeometry 8 1 0 (inRun []) with offset := none }.offset = none := by decide

/-- NoCommandWritesAStore: a block command, which writes the most. -/
theorem witness_command_next : ∃ t, exec (.cram 1) (withGeometry 8 1 0 (lastByte 0 1 [] 0 1)) = .next t := ⟨_, rfl⟩

/-- OnlyItsCommandWritesARegister: a step that changes each of the registers. -/
theorem witness_register_changes :
    (∃ t, step (inRun [0x10]) = .next t ∧ t.bank ≠ (inRun [0x10]).bank) ∧
    (∃ t, step (inRun [0x60]) = .next t ∧ t.width ≠ (inRun [0x60]).width) ∧
    (∃ t, step (inRun [0x70]) = .next t ∧ t.height ≠ (inRun [0x70]).height) ∧
    (∃ t, step (inRun [0x80]) = .next t ∧ t.offset ≠ (inRun [0x80]).offset) ∧
    (∃ t, step (lastByte 0 1 [] 0 5) = .next t ∧ t.crc ≠ (lastByte 0 1 [] 0 5).crc) ∧
    (∃ t, step (inRun [0x90]) = .next t ∧ t.warmboot ≠ (inRun [0x90]).warmboot ∧ t.nosleep ≠ (inRun [0x90]).nosleep) ∧
    (∃ t, step (inRun [0x50]) = .next t ∧ t.freq ≠ (inRun [0x50]).freq) :=
  ⟨⟨_, rfl, by decide⟩, ⟨_, rfl, by decide⟩, ⟨_, rfl, by decide⟩, ⟨_, rfl, by decide⟩, ⟨_, rfl, by decide⟩,
    ⟨_, rfl, by decide, by decide⟩, ⟨_, rfl, by decide⟩⟩

/-- A data byte is due: the premise of DataByteFillsEightCells and StoreLimitStopsTheByteThatExceedsIt. -/
theorem dataDue_inBlock (b : Byte) : DataDue (inBlock 8 8 0 0 b) b := ⟨rfl, rfl, rfl, Nat.zero_lt_succ _, Nat.zero_lt_succ _⟩

/-- DataByteFillsEightCells: without STORE_LIMIT, and with room for exactly the byte's cells. -/
theorem witness_data_byte :
    (DataDue (inBlock 8 8 0 0 0xB0) 0xB0 ∧ (inBlock 8 8 0 0 0xB0).storeLimit = none) ∧
    (DataDue { inBlock 8 8 0 0 0xB0 with storeLimit := some 8 } 0xB0 ∧
      ∀ n, { inBlock 8 8 0 0 0xB0 with storeLimit := some 8 }.storeLimit = some n →
        { inBlock 8 8 0 0 0xB0 with storeLimit := some 8 }.StoresCanonical ∧
        { inBlock 8 8 0 0 0xB0 with storeLimit := some 8 }.cellCount +
          newCells { inBlock 8 8 0 0 0xB0 with storeLimit := some 8 } ≤ n) :=
  ⟨⟨dataDue_inBlock _, rfl⟩, ⟨rfl, rfl, rfl, by decide, by decide⟩, fun n h => by
    cases h; exact ⟨⟨rfl, rfl⟩, by decide⟩⟩

/-- StoreLimitStopsTheByteThatExceedsIt: one cell too few, and just enough. -/
theorem witness_store_limit :
    (DataDue { inBlock 8 8 0 0 0xB0 with storeLimit := some 7 } 0xB0 ∧
      { inBlock 8 8 0 0 0xB0 with storeLimit := some 7 }.StoresCanonical ∧
      { inBlock 8 8 0 0 0xB0 with storeLimit := some 7 }.cellCount ≤ 7 ∧
      7 < { inBlock 8 8 0 0 0xB0 with storeLimit := some 7 }.cellCount +
        newCells { inBlock 8 8 0 0 0xB0 with storeLimit := some 7 }) ∧
    { inBlock 8 8 0 0 0xB0 with storeLimit := some 8 }.cellCount +
      newCells { inBlock 8 8 0 0 0xB0 with storeLimit := some 8 } ≤ 8 :=
  ⟨⟨⟨rfl, rfl, rfl, by decide, by decide⟩, ⟨rfl, rfl⟩, by decide, by decide⟩, by decide⟩

/-- TrailerBytesEndTheBlock: the first byte and the second. -/
theorem witness_trailer :
    (inTrailer 0 false 0xFF).top = .run ∧ (inTrailer 0 false 0xFF).phase = .trailer ∧
    (inTrailer 0 false 0xFF).nextByte = some 0xFF ∧ (inTrailer 0 false 0xFF).trlDone = 0 ∧
    (inTrailer 1 true 0x00).nextByte = some 0x00 ∧ (inTrailer 1 true 0x00).trlDone ≠ 0 := by decide

/-- WholeBlockFillsItsCells, a block of one byte. -/
theorem witness_whole_block :
    (inBlock 8 1 0 0 0xA5).top = .run ∧ (inBlock 8 1 0 0 0xA5).phase = .data ∧ (inBlock 8 1 0 0 0xA5).blkDone = 0 ∧
    0 < (inBlock 8 1 0 0 0xA5).blkBytes ∧
    8 * (inBlock 8 1 0 0 0xA5).blkBytes = (inBlock 8 1 0 0 0xA5).blkW * (inBlock 8 1 0 0 0xA5).blkH ∧
    (inBlock 8 1 0 0 0xA5).streamOffset + (inBlock 8 1 0 0 0xA5).blkBytes ≤ (inBlock 8 1 0 0 0xA5).input.length ∧
    (inBlock 8 1 0 0 0xA5).storeLimit = none := by decide

/-- MemWriteReplacesOneCell: at the limit, and an overwrite at the limit. -/
theorem witness_mem_write :
    ({ State.reset with storeLimit := some 0 }.memRead .cram ⟨0, 0, 0⟩ = none ∧
      { State.reset with storeLimit := some 0 }.storeLimit =
        some { State.reset with storeLimit := some 0 }.cellCount) ∧
    { State.reset with storeLimit := some 1, cramStore := [(⟨0, 0, 0⟩, true)] }.memRead .cram ⟨0, 0, 0⟩ ≠ none := by
  decide

/-- SoundStatesStepToSoundStates, EveryRunEndsWithinTheBound: a state inside a data block is sound. -/
theorem witness_sound : (inBlock 8 1 0 0 0xA5).Sound where
  stores := ⟨rfl, rfl⟩
  widths := by
    constructor <;>
      first
      | (intro v h; cases h; decide)
      | (intro v h; cases h; done)
      | (intro st v h; cases st <;> cases h; decide)
      | decide
  framing := ⟨fun _ h => (by cases h), fun _ h => (by cases h)⟩
  block := by
    constructor <;>
      first
      | decide
      | (intro _ _; exact ⟨Nat.le_refl _, Nat.le_refl _⟩)
  cells := fun st a bit h => by cases st <;> cases h
  limit := fun n h => by cases h
  status := ⟨by decide, by decide, fun _ => ⟨rfl, rfl, rfl, rfl, rfl⟩⟩
  sync := ⟨fun h => (by cases h), by decide, by decide⟩

/-- HiddenRegistersTrackTheInput: SETW 39 with one payload byte consumed. -/
theorem witness_tracks_input :
    (lastByte 6 2 [0x00] 0 0x27).TracksInput ∧ ∃ t, step (lastByte 6 2 [0x00] 0 0x27) = .next t :=
  ⟨⟨by decide, fun h => (by cases h), fun _ _ => ⟨by decide, 4, [0x00], rfl, rfl, by decide, rfl, rfl⟩⟩, _, rfl⟩

/-- TopMovesOnlyAsListed, EntryToFailedDiscardsOtherWrites, EntryToModelFaultDiscardsOtherWrites: every move of TOP. -/
theorem witness_top_moves :
    after (inSync [0x7E, 0xAA, 0x99, 0x7E] 3 0x007EAA99#32) (fun t => t.top) = some .run ∧
    after (inSync [] 0 0#32) (fun t => t.top) = some .failed ∧ after (inRun [0x00]) (fun t => t.top) = some .failed ∧
    after (lastByte 0 1 [] 0 6) (fun t => t.top) = some .terminated ∧
    after (lastByte 0 1 [] 0 1) (fun t => (t.top, t.faultReason)) = some (.modelFault, .geometryUnset) ∧
    after { inBlock 8 1 0 0 0 with storeLimit := some 7 } (fun t => (t.top, t.faultReason)) =
      some (.modelFault, .storeLimitExceeded) := by decide

/-- QuiescentCoreStaysAsItIs: with a byte offered. -/
theorem witness_quiescent :
    { inRun [0x10] with top := .terminated }.nextByte = some 0x10 ∧
    { inRun [0x10] with top := .failed }.top = .failed ∧ { inRun [0x10] with top := .modelFault }.top = .modelFault := by
  decide

/-- StoresNeverInfluenceTheDecode: two different store contents. -/
theorem witness_agree_but_stores :
    (inRun []).storeLimit = none ∧ AgreeButStores (inRun []) { inRun [] with cramStore := [(⟨0, 0, 0⟩, true)] } ∧
    inRun [] ≠ { inRun [] with cramStore := [(⟨0, 0, 0⟩, true)] } := ⟨rfl, rfl, by decide⟩

/-- OutputRegistersNeverInfluenceTheDecode: two different FREQ and CRC. -/
theorem witness_agree_but_outputs :
    AgreeButOutputs (inRun []) { inRun [] with freq := .high, crc := some 0 } ∧
    inRun [] ≠ { inRun [] with freq := .high, crc := some 0 } := ⟨rfl, by decide⟩

/-- CellsOutsideTheExtentReadUnset: a terminated sound state, and a cell outside each extent. -/
theorem witness_outside :
    { inRun [] with top := .terminated, cramExtW := some 8, cramExtH := some 1 }.Sound ∧
    ¬ unsetLe (some ((⟨0, 8, 0⟩ : CellAddr).x + 1)) (some 8) ∧ ¬ unsetLe (some ((⟨0, 0, 1⟩ : CellAddr).y + 1)) (some 1) := by
  refine ⟨?_, by simp [unsetLe], by simp [unsetLe]⟩
  exact
    { stores := ⟨rfl, rfl⟩
      widths := by
        constructor <;>
          first
          | (intro v h; cases h; done)
          | (intro st v h; cases st <;> cases h; decide)
          | decide
      framing := ⟨fun h => (by cases h), fun h => (by cases h)⟩
      block := by constructor <;> first | decide | (intro h; cases h)
      cells := fun st a bit h => by cases st <;> cases h
      limit := fun n h => by cases h
      status := ⟨by decide, by decide, fun _ => ⟨rfl, rfl, rfl, rfl, rfl⟩⟩
      sync := ⟨fun h => (by cases h), by decide, fun h => (by cases h)⟩ }

/-- ReadoutFollowsTop: one state of each kind. -/
theorem witness_readout :
    (inRun []).top = .run ∧ State.reset.top = .sync ∧ { inRun [] with top := .terminated }.top = .terminated ∧
    { inRun [] with top := .failed }.top = .failed ∧ { inRun [] with top := .modelFault }.top = .modelFault := by decide

/-- InterfaceSignalsFollowTop: TOP and the records agree in a state of each kind. -/
theorem witness_signals :
    State.reset.StatusAgrees ∧ (inRun []).StatusAgrees ∧ { inRun [] with top := .terminated }.StatusAgrees ∧
    { inRun [] with top := .failed, errCode := .malformedBlockSize }.StatusAgrees ∧
    { inRun [] with top := .modelFault, faultReason := .geometryUnset }.StatusAgrees :=
  ⟨⟨by decide, by decide, fun _ => ⟨rfl, rfl, rfl, rfl, rfl⟩⟩, ⟨by decide, by decide, fun _ => ⟨rfl, rfl, rfl, rfl, rfl⟩⟩,
    ⟨by decide, by decide, fun _ => ⟨rfl, rfl, rfl, rfl, rfl⟩⟩, ⟨by decide, by decide, by decide⟩,
    ⟨by decide, by decide, fun _ => ⟨rfl, rfl, rfl, rfl, rfl⟩⟩⟩

end Sys2Proof.Tests
end

/-! Proofs about TOP: the moves of one step (10_state.md R21). -/

namespace Sys2Proof.Machine

/-! ### What the next step is, where it is a dispatch that moves TOP -/

theorem fetch_preamble {s : State} {b : Byte} (h : s.top = .sync) (hb : s.nextByte = some b)
    (hw : shiftWindow s.window b = Config.magic) : fetch s = .instr .preamble := by
  simp [fetch, h, hb, fetchSync, hw]

theorem fetch_dispatchCmd {s : State} {b : Byte} (h : s.top = .run) (hp : s.phase = .cmd)
    (hb : s.nextByte = some b) (hl : lenField b = 0) : fetch s = .instr (ofCommand (opField b) 0 0) := by
  simp only [fetch, h, hb, fetchRun, hp, fetchCmd, hl, if_true]

theorem fetch_dispatchPayload {s : State} {b : Byte} (h : s.top = .run) (hp : s.phase = .payload)
    (hb : s.nextByte = some b) (hr : s.payRemain = 1) :
    fetch s = .instr (ofCommand s.cmdOp s.cmdLen (shiftIn s.payload b)) := by
  simp [fetch, h, hb, fetchRun, hp, fetchPayload, hr]

theorem ofCommand_wakeup (len : Nibble) : ofCommand 0 len 6 = .wakeup len := rfl

/-! ### TOP and the records after the shared operations -/

@[simp] theorem State.withSettings_top (s : State) (c : Settings) : (s.withSettings c).top = s.top := rfl

@[simp] theorem State.endOfStream_errCode (s : State) : s.endOfStream.errCode = .unexpectedEndOfStream := by
  obtain ⟨c, op, p, h, -⟩ := s.endOfStream_raise
  rw [h, State.raise_errCode]

@[simp] theorem trailerStep_top (b : Byte) (s : State) : (trailerStep b s).top = s.top := by
  rw [trailerStep_frame]

theorem State.memWriteAll_top {s t : State} {st : StoreId} {ws : List (CellAddr × Bit)}
    (h : s.memWriteAll st ws = some t) : t.top = s.top := by
  rw [State.memWriteAll_frame h]

/-! ### The moves of TOP -/

/-- A dispatch step that moves TOP is WAKEUP's, or records why CORE stopped (41_framing.md R103). -/
theorem CommandTo.top_moves {s t : State} {op len : Nibble} {p : Nat} (hc : CommandTo s op len p t)
    (hne : t.top ≠ s.top) :
    (t.top = .terminated ∧ op = 0 ∧ p = 6) ∨ (t.top = .failed ∧ t.errCode ≠ .noError) ∨
      (t.top = .modelFault ∧ t.faultReason ≠ .noFault) := by
  cases hc with
  | settings c h => simp at hne
  | wakeup h => exact .inl ⟨rfl, h⟩
  | error e h hs => exact .inr (.inl ⟨rfl, h⟩)
  | block st bank w h off hop hp hb hw hh ho hm => simp at hne
  | unset hop hp hn => exact .inr (.inr ⟨rfl, by simp⟩)

/-- One of the moves of TOP that 10_state.md R21 lists, with its cause. -/
def TopMove (s t : State) : Prop :=
  (s.top = .sync ∧ t.top = .run ∧ fetch s = .instr .preamble) ∨
  (s.top = .run ∧ t.top = .terminated ∧ ∃ len, fetch s = .instr (.wakeup len)) ∨
  ((s.top = .sync ∨ s.top = .run) ∧ t.top = .failed ∧ t.errCode ≠ .noError) ∨
  (s.top = .run ∧ t.top = .modelFault ∧ t.faultReason ≠ .noFault)

/-- In RUN, the dispatch step of the command that fetch reads moves TOP only as listed. -/
theorem CommandTo.topMove {s t : State} {op len : Nibble} {p : Nat} (hc : CommandTo s op len p t)
    (hrun : s.top = .run) (hf : fetch s = .instr (ofCommand op len p)) (hne : t.top ≠ s.top) : TopMove s t := by
  rcases hc.top_moves hne with ⟨htop, rfl, rfl⟩ | ⟨htop, herr⟩ | ⟨htop, hfault⟩
  · exact .inr (.inl ⟨hrun, htop, len, by rw [hf, ofCommand_wakeup]⟩)
  · exact .inr (.inr (.inl ⟨.inr hrun, htop, herr⟩))
  · exact .inr (.inr (.inr ⟨hrun, htop, hfault⟩))

/-- By the cases of one step: TOP moves on a preamble, at the end of the stream, in a dispatch step and where
STORE_LIMIT is exceeded, and in no other case. -/
theorem StepTo.topMove {s t : State} (hs : StepTo s t) (hne : t.top ≠ s.top) : TopMove s t := by
  cases hs with
  | quiet h => exact absurd rfl hne
  | eos h hb => exact .inr (.inr (.inl ⟨s.active_iff.mp h, by simp, by simp⟩))
  | syncByte b h hb hw => simp at hne
  | preamble b h hb hw => exact .inl ⟨h, rfl, fetch_preamble h hb hw⟩
  | openCommand b h hp hb hl => simp at hne
  | dispatchCmd b _ h hp hb hl ht => exact ht.topMove h (fetch_dispatchCmd h hp hb hl) hne
  | shiftPayload b h hp hb hr => simp at hne
  | dispatchPayload b _ h hp hb hr ht => exact ht.topMove h (fetch_dispatchPayload h hp hb hr) hne
  | data b u h hp hb hd hw hu => exact absurd (State.memWriteAll_top hu) hne
  | dataLimit b h hp hb hd hw hu => exact .inr (.inr (.inr ⟨h, rfl, by simp⟩))
  | trailer b h hp hb => simp at hne

/-- Settles O44: every next state is one of the cases of a step, and each case that changes TOP is a listed move. -/
theorem topMovesOnlyAsListed : Obligations.TopMovesOnlyAsListed :=
  ⟨rfl, fun _ _ hstep hne => (step_cases hstep).topMove hne⟩

end Sys2Proof.Machine

/-! Proofs about payloads: the big-endian sum and its bound (30_encoding.md R72). -/

namespace Sys2Proof

/-- The sum form of a payload (30_encoding.md R72), by induction on the bytes: `beValue_cons` peels off the summand of
byte 0, and the tail's bytes keep their distance from the end. -/
theorem beValue_eq_sum (bs : List Byte) :
    beValue bs = ∑ k ∈ Finset.range bs.length, (bs.getD k 0).toNat * 256 ^ (bs.length - 1 - k) := by
  induction bs with
  | nil => rfl
  | cons b bs ih =>
    rw [beValue_cons, ih, List.length_cons, Finset.sum_range_succ', Nat.add_comm]
    simp [Nat.sub_sub, Nat.add_comm 1]

/-- At most fifteen bytes hold a value of 120 bits (30_encoding.md R72). -/
theorem beValue_lt_of_length_le {bs : List Byte} (h : bs.length ≤ 15) : beValue bs < 2 ^ 120 :=
  calc beValue bs < 256 ^ bs.length := beValue_lt bs
    _ ≤ 256 ^ 15 := Nat.pow_le_pow_right (by decide) h
    _ = 2 ^ 120 := by norm_num

/-- Settles O7: the sum by induction on the bytes, the bound from `beValue_lt` at fifteen bytes. -/
theorem payloadIsTheBigEndianSum : Obligations.PayloadIsTheBigEndianSum :=
  ⟨beValue_eq_sum, beValue_nil, fun _ h => Nat.le_sub_one_of_lt (beValue_lt_of_length_le h)⟩

end Sys2Proof

/-! Proofs about the synchronizer: the two outcomes of a SYNC byte (40_synchronizer.md R90). -/

namespace Sys2Proof.Machine

theorem step_of_fetch_instr {s : State} {i : Instr} (h : fetch s = .instr i) : step s = exec i s := by
  rw [step, h]

theorem step_of_fetch_other {s : State} {o : Host.Outcome State Fault Refusal} (h : fetch s = .other o) :
    step s = o := by
  rw [step, h]

theorem fetch_shiftSync {s : State} {b : Byte} (h : s.top = .sync) (hb : s.nextByte = some b)
    (hw : shiftWindow s.window b ≠ Config.magic) : fetch s = .other (.next (s.shiftSync b)) := by
  simp only [fetch, h, hb, fetchSync, if_neg hw]

theorem exec_preamble (s : State) : exec .preamble s = .next { s with
    window := Config.magic, streamOffset := s.streamOffset + 1, syncBytes := some (s.streamOffset + 1),
    top := .run, phase := .cmd } := rfl

/-- Settles O13: split on whether the shifted window is MAGIC; a match is the preamble's dispatch, and then MAGIC is the
window the statement writes. -/
theorem syncByteShiftsOrMatches : Obligations.SyncByteShiftsOrMatches := by
  refine ⟨fun s b hsync hb => ?_, exec_preamble⟩
  change step s = .next (if shiftWindow s.window b = Config.magic then
    { s with
      window := shiftWindow s.window b, streamOffset := s.streamOffset + 1,
      syncBytes := some (s.streamOffset + 1), top := .run, phase := .cmd }
    else s.shiftSync b)
  by_cases hw : shiftWindow s.window b = Config.magic
  · rw [if_pos hw, hw, step_of_fetch_instr (fetch_preamble hsync hb hw), exec_preamble]
  · rw [if_neg hw, step_of_fetch_other (fetch_shiftSync hsync hb hw)]

end Sys2Proof.Machine

/-! Proofs about the framing: the end of the stream in RUN (41_framing.md R104, 43_subcommands.md R154). -/

namespace Sys2Proof.Machine

theorem fetch_eos {s : State} (h : s.active = true) (hb : s.nextByte = none) :
    fetch s = .other (.next s.endOfStream) := by
  rcases s.active_iff.mp h with hsync | hrun
  · simp only [fetch, hsync, hb]
  · simp only [fetch, hrun, hb]

theorem step_eos {s : State} (h : s.active = true) (hb : s.nextByte = none) : step s = .next s.endOfStream :=
  step_of_fetch_other (fetch_eos h hb)

theorem State.endOfStream_cmd {s : State} (h : s.top = .run) (hp : s.phase = .cmd) :
    s.endOfStream = s.raise .unexpectedEndOfStream none none none 0 := by
  simp only [State.endOfStream, h, hp]

theorem State.endOfStream_data {s : State} (h : s.top = .run) (hp : s.phase = .data) :
    s.endOfStream = s.raise .unexpectedEndOfStream s.cmdOffset (some 0) (some s.payload) 0 := by
  simp only [State.endOfStream, h, hp]

/-- The entry to FAILED that the model shares is the one the statements write out (60_exceptions.md R182). -/
theorem State.raise_eq_failed (s : State) (e : ErrCode) (c : OrUnset Nat) (op : OrUnset Nibble) (p : OrUnset Nat)
    (consumed : Nat) : s.raise e c op p consumed = Claims.failed s e c op p consumed := rfl

/-- Settles O19: with no byte left the step is the end of the stream, whose error record PHASE selects. -/
theorem endOfStreamAtCommandAndInData : Obligations.EndOfStreamAtCommandAndInData := by
  refine ⟨fun s hrun hcmd hb => ?_, fun s hrun hdata hb => ?_⟩
  · rw [step_eos (s.active_iff.mpr (.inr hrun)) hb, State.endOfStream_cmd hrun hcmd, State.raise_eq_failed]
  · rw [step_eos (s.active_iff.mpr (.inr hrun)) hb, State.endOfStream_data hrun hdata, State.raise_eq_failed]

end Sys2Proof.Machine

/-! Proofs about the opcodes: how a dispatch step completes or fails (41_framing.md R103), and what BANK, FREQ, SETW,
SETH, SETOFF, FLAGS and the undefined opcodes 10 to 15 do in it (42_opcodes.md). -/

namespace Sys2Proof.Machine

open Sys2Proof.Claims

/-! ### Completion and failure of a dispatch step, as the statements write them out -/

/-- PHASE decides whose writes the framing makes: the CMD step's (41_framing.md R100) or the last PAYLOAD step's
(R102). -/
theorem State.endFraming_eq_framed (s : State) (op len : Nibble) (p : Nat) :
    s.endFraming op len p = framed s op len p := by
  cases hp : s.phase <;> simp [State.endFraming, State.commandIndex, framed, hp]

theorem State.commandDone_eq_framed (s : State) (op len : Nibble) (p : Nat) :
    s.commandDone op len p = { framed s op len p with phase := .cmd } := by
  rw [State.commandDone, State.endFraming_eq_framed]

/-- PHASE decides which index is recorded as the command byte's (41_framing.md R103). -/
theorem State.raiseDispatch_eq_failedDispatch (s : State) (e : ErrCode) (op : Nibble) (p : Nat) :
    s.raiseDispatch e op p = failedDispatch s e op p := by
  rw [State.raiseDispatch, State.raise_eq_failed, failedDispatch]
  cases hp : s.phase <;> simp [State.commandIndex, hp]

/-! ### The geometry commands (42_opcodes.md R122, R127 to R129) -/

theorem exec_bank (len : Nibble) (p : Nat) (s : State) :
    exec (.bank len p) s = .next { s.commandDone 1 len p with bank := some p } := rfl

theorem exec_setw (len : Nibble) (p : Nat) (s : State) :
    exec (.setw len p) s = .next { s.commandDone 6 len p with width := some (p + 1) } := rfl

theorem exec_seth (len : Nibble) (p : Nat) (s : State) :
    exec (.seth len p) s = .next { s.commandDone 7 len p with height := some p } := rfl

theorem exec_setoff (len : Nibble) (p : Nat) (s : State) :
    exec (.setoff len p) s = .next { s.commandDone 8 len p with offset := some p } := rfl

/-- Settles O21: each command's own write, beside the completed dispatch step. -/
theorem geometryCommandsWriteTheirRegister : Obligations.GeometryCommandsWriteTheirRegister := by
  refine fun s len p => ⟨?_, ?_, ?_, ?_⟩
  · simp only [exec_bank, State.commandDone_eq_framed]
  · simp only [exec_setw, State.commandDone_eq_framed]
  · simp only [exec_seth, State.commandDone_eq_framed]
  · simp only [exec_setoff, State.commandDone_eq_framed]

/-! ### FREQ (42_opcodes.md R126) -/

theorem exec_freq (len : Nibble) (p : Nat) (s : State) :
    exec (.freq len p) s = .next { s.commandDone 5 len p with freq := freqOf p } := rfl

@[simp] theorem freqOf_zero : freqOf 0 = .low := rfl

@[simp] theorem freqOf_one : freqOf 1 = .medium := rfl

@[simp] theorem freqOf_two : freqOf 2 = .high := rfl

@[simp] theorem freqOf_add_three (n : Nat) : freqOf (n + 3) = .unknown (n + 3) := rfl

/-- Settles O22: the completed dispatch step, with a case per range that the payload selects. -/
theorem freqWritesTheSelectedRange : Obligations.FreqWritesTheSelectedRange := by
  intro s len p
  simp only [exec_freq, State.commandDone_eq_framed]
  match p with
  | 0 => simp only [freqOf_zero]
  | 1 => simp only [freqOf_one]
  | 2 => simp only [freqOf_two]
  | n + 3 => simp only [freqOf_add_three]

/-! ### FLAGS (42_opcodes.md R130) -/

theorem featureFlags_eq_none {p : Nat} (h : p ∉ [0, 1, 32, 33]) : featureFlags p = none := by
  simp only [List.mem_cons, List.not_mem_nil, or_false, not_or] at h
  obtain ⟨h0, h1, h32, h33⟩ := h
  rw [featureFlags, if_neg h0, if_neg h1, if_neg h32, if_neg h33]

theorem exec_flags_of_some {p : Nat} {warm sleepless : Bit} (h : featureFlags p = some (warm, sleepless)) (len : Nibble)
    (s : State) :
    exec (.flags len p) s =
      .next { framed s 9 len p with warmboot := some warm, nosleep := some sleepless, phase := .cmd } := by
  simp only [exec, execFlags, h, State.commandDone_eq_framed]

theorem exec_flags_of_none {p : Nat} (h : featureFlags p = none) (len : Nibble) (s : State) :
    exec (.flags len p) s = .next (failedDispatch s .invalidFeatureFlags 9 p) := by
  simp only [exec, execFlags, h, State.raiseDispatch_eq_failedDispatch]

/-- Settles O23: the selector's two flags are `featureFlags`, which has none for any other payload. -/
theorem flagsWritesBothOrFails : Obligations.FlagsWritesBothOrFails := fun s len =>
  ⟨exec_flags_of_some rfl len s, exec_flags_of_some rfl len s, exec_flags_of_some rfl len s,
    exec_flags_of_some rfl len s, fun _ h => exec_flags_of_none (featureFlags_eq_none h) len s⟩

/-! ### The undefined opcodes (42_opcodes.md R131 to R136) -/

theorem exec_op10 (len : Nibble) (p : Nat) (s : State) :
    exec (.op10 len p) s = .next (s.raiseDispatch .unknownCommand 10 p) := rfl

theorem exec_op11 (len : Nibble) (p : Nat) (s : State) :
    exec (.op11 len p) s = .next (s.raiseDispatch .unknownCommand 11 p) := rfl

theorem exec_op12 (len : Nibble) (p : Nat) (s : State) :
    exec (.op12 len p) s = .next (s.raiseDispatch .unknownCommand 12 p) := rfl

theorem exec_op13 (len : Nibble) (p : Nat) (s : State) :
    exec (.op13 len p) s = .next (s.raiseDispatch .unknownCommand 13 p) := rfl

theorem exec_op14 (len : Nibble) (p : Nat) (s : State) :
    exec (.op14 len p) s = .next (s.raiseDispatch .unknownCommand 14 p) := rfl

theorem exec_op15 (len : Nibble) (p : Nat) (s : State) :
    exec (.op15 len p) s = .next (s.raiseDispatch .unknownCommand 15 p) := rfl

/-- Settles O28: each opcode's dispatch raises UnknownCommand, and that is the entry to FAILED the statement writes
out. -/
theorem undefinedOpcodesFail : Obligations.UndefinedOpcodesFail := by
  refine fun s len p => ⟨?_, ?_, ?_, ?_, ?_, ?_⟩
  · rw [exec_op10, State.raiseDispatch_eq_failedDispatch]
  · rw [exec_op11, State.raiseDispatch_eq_failedDispatch]
  · rw [exec_op12, State.raiseDispatch_eq_failedDispatch]
  · rw [exec_op13, State.raiseDispatch_eq_failedDispatch]
  · rw [exec_op14, State.raiseDispatch_eq_failedDispatch]
  · rw [exec_op15, State.raiseDispatch_eq_failedDispatch]

end Sys2Proof.Machine

/-! Proofs about the sub-commands: opcode 0 with a payload that names none of them (43_subcommands.md R164). -/

namespace Sys2Proof

theorem ofCommand_zero (len : Nibble) (p : Nat) : ofCommand 0 len p = ofSub len p := rfl

theorem ofSub_of_not_named {p : Nat} (h : p ∉ [1, 3, 5, 6]) (len : Nibble) : ofSub len p = .subUnknown len p := by
  simp only [List.mem_cons, List.not_mem_nil, or_false, not_or] at h
  obtain ⟨h1, h3, h5, h6⟩ := h
  rw [ofSub, if_neg h1, if_neg h3, if_neg h5, if_neg h6]

end Sys2Proof

namespace Sys2Proof.Machine

theorem exec_subUnknown (len : Nibble) (p : Nat) (s : State) :
    exec (.subUnknown len p) s = .next (s.raiseDispatch .unknownSubcommand 0 p) := rfl

/-- Settles O27: the payload fails all four tests of the sub-command map, and the dispatch it is left with raises
UnknownSubcommand, the entry to FAILED the statement writes out. -/
theorem unknownSubcommandFails : Obligations.UnknownSubcommandFails := by
  refine fun s len p hp => ⟨?_, ?_⟩
  · rw [ofCommand_zero, ofSub_of_not_named hp]
  · rw [exec_subUnknown, State.raiseDispatch_eq_failedDispatch]

end Sys2Proof.Machine

/-! Proofs about the encoding: decode and encode are inverse (30_encoding.md sections 1 to 4), leading zeros (R56), and
the assembler's default length (R82). -/

namespace Sys2Proof

/-! ### The command that an opcode, a length and a payload select -/

theorem isNamedSub_eq_false {p : Nat} : isNamedSub p = false ↔ p ∉ [1, 3, 5, 6] := by
  simp [isNamedSub, and_assoc]

theorem Instr.wellFormed_subUnknown {len : Nibble} {p : Nat} :
    (Instr.subUnknown len p).WellFormed ↔ fitsIn len p = true ∧ p ∉ [1, 3, 5, 6] := by
  rw [Instr.WellFormed, Instr.wellFormed, Bool.and_eq_true, Bool.not_eq_true', isNamedSub_eq_false]

/-- A command is the one that its own three fields select; the payload of an unknown sub-command selects no named one. -/
theorem ofCommand_fields {i : Instr} (hc : i.context = .run) (hi : i.WellFormed) :
    ofCommand i.opcode i.len i.payload = i := by
  cases i with
  | preamble => cases hc
  | subUnknown len p => exact ofSub_of_not_named (Instr.wellFormed_subUnknown.mp hi).2 len
  | _ => rfl

theorem Instr.fitsIn_of_wellFormed {i : Instr} (hi : i.WellFormed) : fitsIn i.len i.payload = true := by
  cases i with
  | preamble => rfl
  | subUnknown len p => exact (Instr.wellFormed_subUnknown.mp hi).1
  | _ => exact hi

/-- The five ways the whole payload of opcode 0 selects (30_encoding.md R75). -/
theorem ofSub_cases (len : Nibble) (p : Nat) :
    (p = 1 ∧ ofSub len p = .cram len) ∨ (p = 3 ∧ ofSub len p = .bram len) ∨ (p = 5 ∧ ofSub len p = .crcrst len) ∨
      (p = 6 ∧ ofSub len p = .wakeup len) ∨ (p ∉ [1, 3, 5, 6] ∧ ofSub len p = .subUnknown len p) := by
  by_cases h : p ∈ [1, 3, 5, 6]
  · simp only [List.mem_cons, List.not_mem_nil, or_false] at h
    rcases h with rfl | rfl | rfl | rfl
    · exact .inl ⟨rfl, rfl⟩
    · exact .inr (.inl ⟨rfl, rfl⟩)
    · exact .inr (.inr (.inl ⟨rfl, rfl⟩))
    · exact .inr (.inr (.inr (.inl ⟨rfl, rfl⟩)))
  · exact .inr (.inr (.inr (.inr ⟨h, ofSub_of_not_named h len⟩)))

/-- The fields of the command that `op`, `len` and `p` select: it is read in RUN, it has these fields, and it is
well-formed where its payload fits its length. -/
structure HasFields (i : Instr) (op len : Nibble) (p : Nat) : Prop where
  wellFormed : fitsIn len p = true → i.WellFormed
  context : i.context = .run
  opcode : i.opcode = op
  len : i.len = len
  payload : i.payload = p

theorem ofSub_hasFields (len : Nibble) (p : Nat) : HasFields (ofSub len p) 0 len p := by
  rcases ofSub_cases len p with ⟨rfl, h⟩ | ⟨rfl, h⟩ | ⟨rfl, h⟩ | ⟨rfl, h⟩ | ⟨hp, h⟩ <;> rw [h]
  case inr.inr.inr.inr => exact ⟨fun hf => Instr.wellFormed_subUnknown.mpr ⟨hf, hp⟩, rfl, rfl, rfl, rfl⟩
  all_goals exact ⟨id, rfl, rfl, rfl, rfl⟩

/-- By the sixteen opcodes. -/
theorem ofCommand_hasFields (op len : Nibble) (p : Nat) : HasFields (ofCommand op len p) op len p := by
  rcases nibble_cases op with rfl | rfl | rfl | rfl | rfl | rfl | rfl | rfl | rfl | rfl | rfl | rfl | rfl | rfl | rfl |
    rfl
  · exact ofSub_hasFields len p
  all_goals exact ⟨id, rfl, rfl, rfl, rfl⟩

@[simp] theorem ofCommand_len (op len : Nibble) (p : Nat) : (ofCommand op len p).len = len :=
  (ofCommand_hasFields op len p).len

@[simp] theorem ofCommand_opcode (op len : Nibble) (p : Nat) : (ofCommand op len p).opcode = op :=
  (ofCommand_hasFields op len p).opcode

@[simp] theorem ofCommand_payload (op len : Nibble) (p : Nat) : (ofCommand op len p).payload = p :=
  (ofCommand_hasFields op len p).payload

/-! ### Decoding a command -/

/-- A command byte and as many payload bytes as it announces decode to the command they select (30_encoding.md R71 to
R75). -/
theorem decode_run_cons (op len : Nibble) {pay : List Byte} (h : pay.length = len.toNat) (rest : List Byte) :
    decode .run (cmdByte op len :: (pay ++ rest)) = .ok (ofCommand op len (beValue pay), rest) := by
  simp [decode, decodeCommand, ← h]

/-- What decodes in RUN is a command byte, its payload bytes and the bytes after it. -/
theorem decode_run_eq_ok {bs rest : List Byte} {i : Instr} (h : decode .run bs = .ok (i, rest)) :
    ∃ op len pay, bs = cmdByte op len :: (pay ++ rest) ∧ pay.length = len.toNat ∧
      i = ofCommand op len (beValue pay) := by
  cases bs with
  | nil => cases h
  | cons b tail =>
    simp only [decode, decodeCommand] at h
    split at h
    · cases h
    · next hlen =>
      simp only [Except.ok.injEq, Prod.mk.injEq] at h
      obtain ⟨rfl, rfl⟩ := h
      refine ⟨opField b, lenField b, tail.take (lenField b).toNat, ?_, ?_, rfl⟩
      · rw [cmdByte_fields, List.take_append_drop]
      · rw [List.length_take]; omega

/-- What decodes in SYNC is the preamble and the bytes after it. -/
theorem decode_sync_eq_ok {bs rest : List Byte} {i : Instr} (h : decode .sync bs = .ok (i, rest)) :
    i = .preamble ∧ bs = Config.preambleBytes ++ rest := by
  simp only [decode, decodePreamble] at h
  split at h
  · cases h
  · split at h
    · next hpre =>
      simp only [Except.ok.injEq, Prod.mk.injEq] at h
      obtain ⟨rfl, rfl⟩ := h
      exact ⟨rfl, by rw [← hpre, List.take_append_drop]⟩
    · cases h

theorem beValue_beBytes_of_fitsIn {len : Nibble} {p : Nat} (h : fitsIn len p = true) :
    beValue (beBytes len.toNat p) = p := by
  rw [beValue_beBytes, Nat.mod_eq_of_lt (by simpa [fitsIn] using h)]

/-- An encoded command decodes to the command its fields select. -/
theorem decode_encodeCommand {op len : Nibble} {p : Nat} (h : fitsIn len p = true) (rest : List Byte) :
    decode .run (encodeCommand op len p ++ rest) = .ok (ofCommand op len p, rest) := by
  rw [encodeCommand, List.cons_append, decode_run_cons op len (beBytes_length _ _), beValue_beBytes_of_fitsIn h]

/-- Settles O5: the preamble by evaluation; a command decodes to what its fields select, which is itself. -/
theorem decodeOfEncodeIsTheInstruction : Obligations.DecodeOfEncodeIsTheInstruction := by
  intro i rest hi
  cases hc : i.context with
  | sync =>
    cases i with
    | preamble => rfl
    | _ => cases hc
  | run => rw [encode, hc, decode_encodeCommand (Instr.fitsIn_of_wellFormed hi), ofCommand_fields hc hi]

theorem fitsIn_beValue {len : Nibble} {pay : List Byte} (h : pay.length = len.toNat) :
    fitsIn len (beValue pay) = true := by
  simpa [fitsIn, ← h] using beValue_lt pay

theorem encode_ofCommand (op len : Nibble) (p : Nat) : encode (ofCommand op len p) = encodeCommand op len p := by
  obtain ⟨-, hc, hop, hlen, hp⟩ := ofCommand_hasFields op len p
  rw [encode, hc, hop, hlen, hp]

/-- Settles O6: what decodes is a command byte with its payload bytes, and the bytes of a payload's value are those
bytes. -/
theorem encodeOfDecodeIsTheBytes : Obligations.EncodeOfDecodeIsTheBytes := by
  intro c bs rest i h
  cases c with
  | sync =>
    obtain ⟨rfl, rfl⟩ := decode_sync_eq_ok h
    exact ⟨rfl, rfl, rfl⟩
  | run =>
    obtain ⟨op, len, pay, rfl, hlen, rfl⟩ := decode_run_eq_ok h
    have hf := ofCommand_hasFields op len (beValue pay)
    refine ⟨hf.wellFormed (fitsIn_beValue hlen), hf.context, ?_⟩
    rw [encode_ofCommand, encodeCommand, ← hlen, beBytes_beValue, List.cons_append]

/-! ### Leading zeros -/

theorem beValue_replicate_zero_append (n : Nat) (bs : List Byte) : beValue (List.replicate n 0#8 ++ bs) = beValue bs := by
  induction n with
  | zero => rfl
  | succ n ih => rw [List.replicate_succ, List.cons_append, beValue_cons, ih]; simp

/-- Settles O8: leading zeros keep the payload's value, which alone selects the command. -/
theorem leadingZeroBytesKeepThePayload : Obligations.LeadingZeroBytesKeepThePayload := by
  intro op len pay rest zeros hlen
  rw [decode_run_cons op len (by simp [hlen]), beValue_replicate_zero_append]

/-! ### The assembler's default length -/

theorem byteCount_le (fuel p : Nat) : byteCount fuel p ≤ fuel := by
  induction fuel generalizing p with
  | zero => simp [byteCount]
  | succ fuel ih =>
    simp only [byteCount]
    split
    · omega
    · have := ih (p / 256); omega

theorem lt_pow_byteCount {fuel p : Nat} (h : p < 256 ^ fuel) : p < 256 ^ byteCount fuel p := by
  induction fuel generalizing p with
  | zero => simpa [byteCount] using h
  | succ fuel ih =>
    simp only [byteCount]
    split
    · next hp => simp [hp]
    · rw [pow_succ] at h ⊢
      exact (Nat.div_lt_iff_lt_mul (by decide)).mp (ih ((Nat.div_lt_iff_lt_mul (by decide)).mpr h))

/-- No fewer bytes hold `p`. -/
theorem byteCount_le_of_lt_pow (fuel : Nat) {p m : Nat} (h : p < 256 ^ m) : byteCount fuel p ≤ m := by
  induction fuel generalizing p m with
  | zero => simp [byteCount]
  | succ fuel ih =>
    simp only [byteCount]
    split
    · omega
    · next hp =>
      cases m with
      | zero => exact absurd (by simpa using h) hp
      | succ m =>
        rw [pow_succ] at h
        exact Nat.succ_le_succ (ih ((Nat.div_lt_iff_lt_mul (by decide)).mpr h))

/-- Settles O9: the default length is the number of base-256 digits of the payload, at most 15 of them. -/
theorem assemblerEmitsTheShortestCommand : Obligations.AssemblerEmitsTheShortestCommand := by
  intro op p hp
  have hmax : p < 256 ^ Config.maxPayloadBytes := hp.trans_eq (by norm_num)
  have hlen : (BitVec.ofNat 4 (byteCount Config.maxPayloadBytes p)).toNat = byteCount Config.maxPayloadBytes p :=
    Nat.mod_eq_of_lt (Nat.lt_succ_of_le (byteCount_le _ p))
  have hdef : defaultLen p = some (BitVec.ofNat 4 (byteCount Config.maxPayloadBytes p)) := if_pos hmax
  have hfits : fitsIn (BitVec.ofNat 4 (byteCount Config.maxPayloadBytes p)) p = true := by
    rw [fitsIn, hlen]; exact decide_eq_true (lt_pow_byteCount hmax)
  refine ⟨_, hdef, hfits, fun m hm => ?_, _, by rw [assembleOne, hdef, Option.map_some], ?_⟩
  · rw [hlen]; exact byteCount_le_of_lt_pow _ (by simpa [fitsIn] using hm)
  · simpa using decode_encodeCommand (op := op) hfits []

/-! ### Words and maps written out -/

/-- Settles O3: the decoder run on each word. -/
theorem wordsDecodeAsTheSpecWritesThem : Obligations.WordsDecodeAsTheSpecWritesThem :=
  ⟨rfl, rfl, rfl, rfl, rfl, rfl, rfl, rfl, rfl, rfl⟩

/-- Settles O4: the opcode selects by evaluation; an unnamed payload fails the four tests of the sub-command map. -/
theorem opcodeAndSubcommandMaps : Obligations.OpcodeAndSubcommandMaps := fun len p =>
  ⟨rfl, rfl, rfl, rfl, fun h1 h3 h5 h6 => ofSub_of_not_named (by simp [h1, h3, h5, h6]) len, rfl, rfl, rfl, rfl, rfl, rfl,
    rfl, rfl, rfl, rfl, rfl, rfl, rfl, rfl, rfl⟩

end Sys2Proof

/-! Proofs about the framing in RUN: a command is run byte by byte as its decoder reads it (41_framing.md R100 to R103),
and a placed table word is the very next step. -/

namespace Sys2Proof.Machine

open Sys2Proof.Claims

/-! ### Command bytes and payload bytes -/

theorem step_openCommand {s : State} {b : Byte} (h : s.top = .run) (hp : s.phase = .cmd) (hb : s.nextByte = some b)
    (hl : lenField b ≠ 0) : step s = .next (s.openCommand b) := by
  simp only [step, fetch, h, hb, fetchRun, hp, fetchCmd, if_neg hl]

theorem step_shiftPayload {s : State} {b : Byte} (h : s.top = .run) (hp : s.phase = .payload)
    (hb : s.nextByte = some b) (hr : 2 ≤ s.payRemain) : step s = .next (s.shiftPayload b) := by
  have h0 : s.payRemain ≠ 0 := by omega
  have h1 : s.payRemain ≠ 1 := by omega
  simp only [step, fetch, h, hb, fetchRun, hp, fetchPayload, if_neg h0, if_neg h1]

/-- Settles O16: L decides the CMD step, PAY_REMAIN the PAYLOAD step. -/
theorem framingOpensShiftsAndDispatches : Obligations.FramingOpensShiftsAndDispatches := by
  refine ⟨fun s b h hp hb => ?_, fun s b h hp hb hr => ?_⟩
  · change step s = if lenField b = 0 then exec (ofCommand (opField b) 0 0) s else .next (s.openCommand b)
    split
    · next hl => exact step_of_fetch_instr (fetch_dispatchCmd h hp hb hl)
    · next hl => exact step_openCommand h hp hb hl
  · change step s = if s.payRemain = 1 then exec (ofCommand s.cmdOp s.cmdLen (shiftIn s.payload b)) s
      else .next (s.shiftPayload b)
    split
    · next h1 => exact step_of_fetch_instr (fetch_dispatchPayload h hp hb h1)
    · next h1 => exact step_shiftPayload h hp hb (by omega)

/-! ### The dispatch step runs what the decoder reads -/

/-- A command byte that decodes alone announces no payload, and its step is the dispatch of what it decodes to. -/
theorem step_of_decode_commandByte {s : State} {b : Byte} {i : Instr} (h : s.top = .run) (hp : s.phase = .cmd)
    (hb : s.nextByte = some b) (hi : decode .run [b] = .ok (i, [])) : step s = exec i s := by
  obtain ⟨op, len, pay, hbs, hlen, rfl⟩ := decode_run_eq_ok hi
  obtain ⟨rfl, hpay⟩ := List.cons.inj hbs
  obtain rfl : pay = [] := by simpa using hpay.symm
  obtain rfl : len = 0 := (nibble_eq_zero len).mpr hlen.symm
  rw [step_of_fetch_instr (fetch_dispatchCmd h hp hb (by simp)), opField_cmdByte, beValue_nil]

/-- Where PAYLOAD holds the bytes before it, the last payload byte's step is the dispatch of the decoded command. -/
theorem step_of_decode_lastPayloadByte {s : State} {b : Byte} {got : List Byte} {i : Instr} (h : s.top = .run)
    (hp : s.phase = .payload) (hb : s.nextByte = some b) (hr : s.payRemain = 1)
    (hlen : got.length + 1 = s.cmdLen.toNat) (hpay : s.payload = beValue got)
    (hi : decode .run (cmdByte s.cmdOp s.cmdLen :: (got ++ [b])) = .ok (i, [])) : step s = exec i s := by
  have hdec := decode_run_cons s.cmdOp s.cmdLen (pay := got ++ [b]) (by simpa using hlen) []
  rw [List.append_nil, hi] at hdec
  simp only [Except.ok.injEq, Prod.mk.injEq, and_true] at hdec
  rw [step_of_fetch_instr (fetch_dispatchPayload h hp hb hr), hdec, beValue_concat, hpay]

/-- Settles O10: the match by definition of the window, a command byte and a last payload byte by what decodes. -/
theorem stepRunsTheDecodedInstruction : Obligations.StepRunsTheDecodedInstruction := fun _ _ hb =>
  ⟨fun h hw => step_of_fetch_instr (fetch_preamble h hb hw),
    fun h hp _ hi => step_of_decode_commandByte h hp hb hi,
    fun h hp hr _ _ hlen hpay hi => step_of_decode_lastPayloadByte h hp hb hr hlen hpay hi⟩

/-! ### A whole command in INPUT -/

theorem State.nextByte_of_drop {s : State} {b : Byte} {bs : List Byte} (h : s.input.drop s.streamOffset = b :: bs) :
    s.nextByte = some b := by
  rw [State.nextByte, ← List.head?_drop, h, List.head?_cons]

theorem State.drop_succ_of_drop {s : State} {b : Byte} {bs : List Byte} (h : s.input.drop s.streamOffset = b :: bs) :
    s.input.drop (s.streamOffset + 1) = bs := by
  rw [← List.drop_drop, h, List.drop_one, List.tail_cons]

/-- Payload bytes short of the last are shifted in one by one (41_framing.md R102). -/
theorem runSteps_shiftPayload {s : State} {got rest : List Byte} (h : s.top = .run) (hp : s.phase = .payload)
    (hin : s.input.drop s.streamOffset = got ++ rest) (hr : got.length + 1 ≤ s.payRemain) :
    s.runSteps got.length = .next { s with
      streamOffset := s.streamOffset + got.length, payload := shiftInAll s.payload got,
      payRemain := s.payRemain - got.length } := by
  induction got generalizing s with
  | nil => rfl
  | cons b got ih =>
    rw [List.length_cons] at hr ⊢
    have hstep := step_shiftPayload h hp (State.nextByte_of_drop hin) (by omega)
    have hrest := ih (s := s.shiftPayload b) h hp (State.drop_succ_of_drop hin) (by simp; omega)
    rw [State.runSteps_succ _ hstep, hrest]
    simp [State.shiftPayload, shiftInAll, Nat.add_assoc, Nat.sub_sub, Nat.add_comm 1]

/-- The command byte and all payload bytes but the last lead to the state the statement writes out. -/
theorem runSteps_beforeLastByte {s : State} {op len : Nibble} {got rest : List Byte} {b : Byte} (h : s.top = .run)
    (hp : s.phase = .cmd) (hin : s.input.drop s.streamOffset = cmdByte op len :: (got ++ b :: rest))
    (hlen : got.length + 1 = len.toNat) :
    s.runSteps len.toNat = .next { s with
      phase := .payload, streamOffset := s.streamOffset + len.toNat, cmdOffset := some s.streamOffset, cmdOp := op,
      cmdLen := len, payRemain := 1, payload := beValue got } := by
  have hstep := step_openCommand h hp (State.nextByte_of_drop hin)
    (by rw [lenField_cmdByte, ne_eq, nibble_eq_zero]; omega)
  have hrest := runSteps_shiftPayload (s := s.openCommand (cmdByte op len)) h rfl (State.drop_succ_of_drop hin)
    (by simp; omega)
  rw [← hlen, State.runSteps_succ _ hstep, hrest]
  simp [State.openCommand, beValue, ← hlen, Nat.add_assoc, Nat.add_comm 1]

theorem beValue_concat_div (got : List Byte) (b : Byte) : beValue (got ++ [b]) / 256 = beValue got := by
  rw [beValue_concat, shiftIn]
  have := b.isLt
  omega

/-- Settles O11: with L = 0 the command byte is the dispatch; with L >= 1 the payload's bytes before the last are
shifted in, and the last one is the dispatch. -/
theorem commandBytesInInputRunAsDecoded : Obligations.CommandBytesInInputRunAsDecoded := by
  intro s i rest h hp hi
  suffices hs : s.runSteps i.len.toNat = .next (beforeLastByte s i) ∧
      step (beforeLastByte s i) = exec i (beforeLastByte s i) by
    exact ⟨hs.1, hs.2, (State.runSteps_last hs.1).trans hs.2⟩
  obtain ⟨op, len, pay, hin, hlen, rfl⟩ := decode_run_eq_ok hi
  rw [ofCommand_len]
  by_cases h0 : len = 0
  · subst h0
    obtain rfl : pay = [] := List.length_eq_zero_iff.mp hlen
    have hb : s.nextByte = some (cmdByte op 0) := State.nextByte_of_drop hin
    rw [beforeLastByte, ofCommand_len, if_pos rfl]
    exact ⟨rfl, step_of_decode_commandByte h hp hb (decode_run_cons op 0 (pay := []) rfl [])⟩
  · obtain ⟨got, b, rfl⟩ : ∃ got b, pay = got ++ [b] := by
      refine (List.eq_nil_or_concat' pay).resolve_left ?_
      rintro rfl
      exact h0 ((nibble_eq_zero len).mpr hlen.symm)
    rw [List.length_append, List.length_singleton] at hlen
    rw [List.append_assoc, List.singleton_append] at hin
    rw [beforeLastByte, ofCommand_len, if_neg h0, ofCommand_opcode, ofCommand_payload, beValue_concat_div]
    refine ⟨runSteps_beforeLastByte h hp hin hlen, ?_⟩
    refine step_of_decode_lastPayloadByte (b := b) h rfl ?_ rfl hlen rfl ?_
    · simp only [State.nextByte]
      rw [← List.head?_drop, ← List.drop_drop, hin, ← hlen]
      simp
    · simpa using decode_run_cons op len (pay := got ++ [b]) (by simpa using hlen) []

/-! ### A placed table word -/

theorem placeAt_getElem? (k j : Nat) (input bs : List Byte) : (placeAt k input bs)[k + j]? = bs[j]? := by
  have hk : ((input ++ List.replicate (k - input.length) 0#8).take k).length = k := by simp; omega
  rw [placeAt, List.getElem?_append_right (by omega), hk, Nat.add_sub_cancel_left]

/-- The bytes of a command word are a command byte and at most as many payload bytes as it announces. -/
theorem tableBytes_run {nbits w : Nat} (h : tableContext nbits = .run) :
    ∃ b pay, tableBytes nbits w = b :: pay ∧ pay.length ≤ (lenField b).toNat := by
  rw [tableBytes, h]
  cases hbs : leBytes (nbits / 8) w ++ List.replicate 16 0#8 with
  | nil => simp at hbs
  | cons b rest => exact ⟨b, _, rfl, List.length_take_le _ _⟩

theorem decode_of_decodeTableWord {nbits w : Nat} {i : Instr} (h : decodeTableWord nbits w = some i) :
    ∃ rest, decode (tableContext nbits) (tableBytes nbits w) = .ok (i, rest) := by
  unfold decodeTableWord at h
  split at h
  · next j rest hd => cases h; exact ⟨rest, hd⟩
  · cases h

/-- The preamble's word: the three bytes that stand in WINDOW and the one offered make MAGIC. -/
theorem step_placeTableWord_sync {s : State} {nbits w : Nat} (hc : tableContext nbits = .sync)
    (hbs : tableBytes nbits w = Config.preambleBytes) :
    step (s.placeTableWord nbits w) = exec .preamble (s.placeTableWord nbits w) := by
  have hplace : s.placeTableWord nbits w = { s with
      input := placeAt s.streamOffset s.input Config.preambleBytes, top := .sync,
      streamOffset := s.streamOffset + 3, window := 0x007EAA99#32 } := by
    simp only [State.placeTableWord, hc, hbs]; rfl
  have hw : shiftWindow 0x007EAA99#32 0x7E#8 = Config.magic := by decide
  rw [hplace]
  exact step_of_fetch_instr (fetch_preamble rfl (placeAt_getElem? _ 3 _ _) hw)

/-- A command's word: the command byte alone is offered, or the last byte of its payload. -/
theorem step_placeTableWord_run {s : State} {nbits w : Nat} {b : Byte} {pay : List Byte}
    (hc : tableContext nbits = .run) (hbs : tableBytes nbits w = b :: pay) (hlen : pay.length = (lenField b).toNat) :
    step (s.placeTableWord nbits w) =
      exec (ofCommand (opField b) (lenField b) (beValue pay)) (s.placeTableWord nbits w) := by
  have hdec := decode_run_cons (opField b) (lenField b) hlen []
  by_cases h0 : lenField b = 0
  · have hplace : s.placeTableWord nbits w = { s with
        input := placeAt s.streamOffset s.input (b :: pay), top := .run, phase := .cmd } := by
      simp only [State.placeTableWord, hc, hbs, if_pos h0]
    obtain rfl : pay = [] := by simpa [h0] using hlen
    rw [hplace]
    rw [cmdByte_fields] at hdec
    exact step_of_decode_commandByte rfl rfl (placeAt_getElem? _ 0 _ _) hdec
  · obtain ⟨got, c, rfl⟩ : ∃ got c, pay = got ++ [c] := by
      refine (List.eq_nil_or_concat' pay).resolve_left ?_
      rintro rfl
      exact h0 ((nibble_eq_zero _).mpr hlen.symm)
    rw [List.length_append, List.length_singleton] at hlen
    have hplace : s.placeTableWord nbits w = { s with
        input := placeAt s.streamOffset s.input (b :: (got ++ [c])), top := .run, phase := .payload,
        streamOffset := s.streamOffset + (lenField b).toNat, cmdOffset := some s.streamOffset, cmdOp := opField b,
        cmdLen := lenField b, payRemain := 1, payload := beValue got } := by
      simp only [State.placeTableWord, hc, hbs, if_neg h0]
      simp [← hlen]
    rw [hplace]
    refine step_of_decode_lastPayloadByte (b := c) rfl rfl ?_ rfl hlen rfl (by simpa using hdec)
    simp only [State.nextByte]
    rw [placeAt_getElem?, ← hlen]
    simp

/-- Settles O12: the word's bytes are the preamble or a command with its whole payload, and either is placed so that
its last byte is offered. -/
theorem placedTableWordRunsNext : Obligations.PlacedTableWordRunsNext := by
  intro s nbits w i h
  obtain ⟨rest, hdec⟩ := decode_of_decodeTableWord h
  rw [State.withFetchWord]
  cases hc : tableContext nbits with
  | sync =>
    rw [hc] at hdec
    obtain ⟨rfl, hbs⟩ := decode_sync_eq_ok hdec
    obtain rfl : rest = [] := by
      have hlen : (tableBytes nbits w).length = 4 := by rw [tableBytes, hc]; exact beBytes_length 4 w
      rw [hbs, List.length_append] at hlen
      exact List.length_eq_zero_iff.mp (Nat.add_left_cancel hlen)
    exact step_placeTableWord_sync hc (by rw [hbs, List.append_nil])
  | run =>
    rw [hc] at hdec
    obtain ⟨b, pay, hbs, hle⟩ := tableBytes_run (w := w) hc
    obtain ⟨op, len, pay', hbs', hlen, rfl⟩ := decode_run_eq_ok hdec
    obtain ⟨rfl, rfl⟩ := List.cons.inj (hbs.symm.trans hbs')
    rw [lenField_cmdByte, List.length_append] at hle
    obtain rfl : rest = [] := List.length_eq_zero_iff.mp (by omega)
    rw [List.append_nil] at hbs
    simpa using step_placeTableWord_run (s := s) hc hbs (by simpa using hlen)

end Sys2Proof.Machine

/-! Proofs about what every step leaves unchanged: the position, INPUT, the synchronizer's registers, the settings, the
extents, the stores, and the two entries that discard the step's other writes. -/

namespace Sys2Proof.Machine

open Sys2Proof.Claims

/-! ### Frames of the shared operations -/

/-- A data byte's cell writes replace the contents of the two stores and nothing else. -/
theorem State.memWriteAll_eq {s u : State} {st : StoreId} {ws : List (CellAddr × Bit)}
    (h : s.memWriteAll st ws = some u) : ∃ c b, u = { s with cramStore := c, bramStore := b } :=
  ⟨_, _, State.memWriteAll_frame h⟩

@[simp] theorem State.endOfStream_streamOffset (s : State) : s.endOfStream.streamOffset = s.streamOffset := by
  obtain ⟨c, op, p, h, -⟩ := s.endOfStream_raise
  rw [h]; rfl

@[simp] theorem State.endOfStream_window (s : State) : s.endOfStream.window = s.window := by
  obtain ⟨c, op, p, h, -⟩ := s.endOfStream_raise
  rw [h]; rfl

@[simp] theorem State.endOfStream_syncBytes (s : State) : s.endOfStream.syncBytes = s.syncBytes := by
  obtain ⟨c, op, p, h, -⟩ := s.endOfStream_raise
  rw [h]; rfl

@[simp] theorem State.endOfStream_input (s : State) : s.endOfStream.input = s.input := by
  obtain ⟨c, op, p, h, -⟩ := s.endOfStream_raise
  rw [h]; rfl

@[simp] theorem State.endOfStream_storeLimit (s : State) : s.endOfStream.storeLimit = s.storeLimit := by
  obtain ⟨c, op, p, h, -⟩ := s.endOfStream_raise
  rw [h]; rfl

@[simp] theorem State.endOfStream_cramStore (s : State) : s.endOfStream.cramStore = s.cramStore := by
  obtain ⟨c, op, p, h, -⟩ := s.endOfStream_raise
  rw [h]; rfl

@[simp] theorem State.endOfStream_bramStore (s : State) : s.endOfStream.bramStore = s.bramStore := by
  obtain ⟨c, op, p, h, -⟩ := s.endOfStream_raise
  rw [h]; rfl

@[simp] theorem State.endOfStream_extW (s : State) (st : StoreId) : s.endOfStream.extW st = s.extW st := by
  obtain ⟨c, op, p, h, -⟩ := s.endOfStream_raise
  rw [h]; cases st <;> rfl

@[simp] theorem State.endOfStream_extH (s : State) (st : StoreId) : s.endOfStream.extH st = s.extH st := by
  obtain ⟨c, op, p, h, -⟩ := s.endOfStream_raise
  rw [h]; cases st <;> rfl

@[simp] theorem trailerStep_streamOffset (b : Byte) (s : State) : (trailerStep b s).streamOffset = s.streamOffset + 1 := by
  rw [trailerStep_frame]

@[simp] theorem trailerStep_window (b : Byte) (s : State) : (trailerStep b s).window = s.window := by
  rw [trailerStep_frame]

@[simp] theorem trailerStep_syncBytes (b : Byte) (s : State) : (trailerStep b s).syncBytes = s.syncBytes := by
  rw [trailerStep_frame]

@[simp] theorem trailerStep_input (b : Byte) (s : State) : (trailerStep b s).input = s.input := by
  rw [trailerStep_frame]

@[simp] theorem trailerStep_storeLimit (b : Byte) (s : State) : (trailerStep b s).storeLimit = s.storeLimit := by
  rw [trailerStep_frame]

@[simp] theorem trailerStep_cramStore (b : Byte) (s : State) : (trailerStep b s).cramStore = s.cramStore := by
  rw [trailerStep_frame]

@[simp] theorem trailerStep_bramStore (b : Byte) (s : State) : (trailerStep b s).bramStore = s.bramStore := by
  rw [trailerStep_frame]

@[simp] theorem trailerStep_extW (b : Byte) (s : State) (st : StoreId) : (trailerStep b s).extW st = s.extW st := by
  rw [trailerStep_frame]; cases st <;> rfl

@[simp] theorem trailerStep_extH (b : Byte) (s : State) (st : StoreId) : (trailerStep b s).extH st = s.extH st := by
  rw [trailerStep_frame]; cases st <;> rfl

/-! ### The position (41_framing.md R101) -/

/-- The dispatch step consumes one byte, errors and model faults included. -/
theorem CommandTo.streamOffset {s t : State} {op len : Nibble} {p : Nat} (hc : CommandTo s op len p t) :
    t.streamOffset = s.streamOffset + 1 := by
  cases hc with
  | block => simp
  | _ => rfl

/-- The step consumes the offered byte. -/
abbrev Consumes (s : State) : Prop := (s.top = .sync ∨ s.top = .run) ∧ s.nextByte ≠ none

theorem consumes_sync {s : State} {b : Byte} (h : s.top = .sync) (hb : s.nextByte = some b) : Consumes s :=
  ⟨.inl h, by simp [hb]⟩

theorem consumes_run {s : State} {b : Byte} (h : s.top = .run) (hb : s.nextByte = some b) : Consumes s :=
  ⟨.inr h, by simp [hb]⟩

/-- By the cases of one step: all but the quiescent one and the end of the stream consume a byte. -/
theorem StepTo.streamOffset {s t : State} (hs : StepTo s t) :
    (Consumes s ∧ t.streamOffset = s.streamOffset + 1) ∨ (¬ Consumes s ∧ t.streamOffset = s.streamOffset) := by
  cases hs with
  | quiet h => exact .inr ⟨fun hc => by simp [s.active_iff.mpr hc.1] at h, rfl⟩
  | eos h hb => exact .inr ⟨fun hc => hc.2 hb, s.endOfStream_streamOffset⟩
  | syncByte b h hb hw => exact .inl ⟨consumes_sync h hb, rfl⟩
  | preamble b h hb hw => exact .inl ⟨consumes_sync h hb, rfl⟩
  | openCommand b h hp hb hl => exact .inl ⟨consumes_run h hb, rfl⟩
  | dispatchCmd b _ h hp hb hl ht => exact .inl ⟨consumes_run h hb, ht.streamOffset⟩
  | shiftPayload b h hp hb hr => exact .inl ⟨consumes_run h hb, rfl⟩
  | dispatchPayload b _ h hp hb hr ht => exact .inl ⟨consumes_run h hb, ht.streamOffset⟩
  | data b u h hp hb hd hw hu => exact .inl ⟨consumes_run h hb, rfl⟩
  | dataLimit b h hp hb hd hw hu => exact .inl ⟨consumes_run h hb, rfl⟩
  | trailer b h hp hb => exact .inl ⟨consumes_run h hb, trailerStep_streamOffset b s⟩

/-- Settles O17: every step either consumes the offered byte and counts it, or has none to consume. -/
theorem everyConsumedByteIsCountedOnce : Obligations.EveryConsumedByteIsCountedOnce := by
  intro s t hstep
  change t.streamOffset = s.streamOffset + (if Consumes s then 1 else 0)
  rcases (step_cases hstep).streamOffset with ⟨hc, ht⟩ | ⟨hc, ht⟩
  · rw [if_pos hc, ht]
  · rw [if_neg hc, ht, Nat.add_zero]

/-! ### INPUT and STORE_LIMIT (20_memory.md R51, R64) -/

theorem StepTo.input {s t : State} (hs : StepTo s t) : t.input = s.input ∧ t.storeLimit = s.storeLimit := by
  cases hs with
  | eos h hb => simp
  | dispatchCmd b _ h hp hb hl ht =>
    obtain ⟨-, -, hlim, hin, -⟩ := ht.stores
    exact ⟨hin, hlim⟩
  | dispatchPayload b _ h hp hb hr ht =>
    obtain ⟨-, -, hlim, hin, -⟩ := ht.stores
    exact ⟨hin, hlim⟩
  | data b u h hp hb hd hw hu =>
    obtain ⟨c, d, rfl⟩ := State.memWriteAll_eq hu
    exact ⟨rfl, rfl⟩
  | trailer b h hp hb => simp
  | _ => exact ⟨rfl, rfl⟩

/-- Settles O18: by the cases of one step. -/
theorem noStepWritesInput : Obligations.NoStepWritesInput := fun _ _ hstep => (step_cases hstep).input

/-! ### The synchronizer's registers (70_reset_and_hazards.md R218) -/

theorem CommandTo.sync_frame {s t : State} {op len : Nibble} {p : Nat} (hc : CommandTo s op len p t) :
    t.window = s.window ∧ t.syncBytes = s.syncBytes ∧ (s.top = .run → t.top ≠ .sync) := by
  cases hc with
  | settings c h => exact ⟨rfl, rfl, fun hrun => by simp [hrun]⟩
  | block st => exact ⟨by simp, by simp, fun hrun => by simp [hrun]⟩
  | _ => exact ⟨rfl, rfl, fun _ h => by cases h⟩

theorem StepTo.sync_frame {s t : State} (hs : StepTo s t) (hne : s.top ≠ .sync) :
    t.top ≠ .sync ∧ t.window = s.window ∧ t.syncBytes = s.syncBytes := by
  cases hs with
  | quiet h => exact ⟨hne, rfl, rfl⟩
  | eos h hb => simp
  | syncByte b h hb hw => exact absurd h hne
  | preamble b h hb hw => exact absurd h hne
  | dispatchCmd b _ h hp hb hl ht =>
    obtain ⟨hw, hsy, htop⟩ := ht.sync_frame
    exact ⟨htop h, hw, hsy⟩
  | dispatchPayload b _ h hp hb hr ht =>
    obtain ⟨hw, hsy, htop⟩ := ht.sync_frame
    exact ⟨htop h, hw, hsy⟩
  | data b u h hp hb hd hw hu =>
    obtain ⟨c, d, rfl⟩ := State.memWriteAll_eq hu
    exact ⟨hne, rfl, rfl⟩
  | dataLimit b h hp hb hd hw hu => simp
  | trailer b h hp hb => simpa using hne
  | _ => exact ⟨hne, rfl, rfl⟩

/-- Settles O15: of the cases of one step, the two that write WINDOW or SYNC_BYTES start in SYNC. -/
theorem noResynchronisation : Obligations.NoResynchronisation := fun _ _ hstep hne => (step_cases hstep).sync_frame hne

/-! ### The settings (10_state.md R26 to R32) -/

/-- The configuration registers of `s`. -/
def State.settings (s : State) : Settings where
  bank := s.bank
  width := s.width
  height := s.height
  offset := s.offset
  crc := s.crc
  warmboot := s.warmboot
  nosleep := s.nosleep
  freq := s.freq

@[simp] theorem State.settings_openBlock (s : State) (st : StoreId) (bank w h off : Nat) :
    (s.openBlock st bank w h off).settings = s.settings := by cases st <;> rfl

theorem CommandTo.settings_after {s t : State} {op len : Nibble} {p : Nat} (hc : CommandTo s op len p t) :
    t.settings = s.settings ∨ SettingsAfter s op p t.settings := by
  cases hc with
  | settings c h => exact .inr h
  | block st bank w h off => exact .inl (State.settings_openBlock _ _ _ _ _ _)
  | _ => exact .inl rfl

/-- The settings change in a dispatch step alone, and as the dispatched command says. -/
theorem StepTo.settings_after {s t : State} (hs : StepTo s t) (hne : t.settings ≠ s.settings) :
    ∃ op len p, fetch s = .instr (ofCommand op len p) ∧ SettingsAfter s op p t.settings := by
  cases hs with
  | dispatchCmd b _ h hp hb hl ht =>
    exact ⟨_, _, _, fetch_dispatchCmd h hp hb hl, ht.settings_after.resolve_left hne⟩
  | dispatchPayload b _ h hp hb hr ht =>
    exact ⟨_, _, _, fetch_dispatchPayload h hp hb hr, ht.settings_after.resolve_left hne⟩
  | eos h hb =>
    obtain ⟨c, op, p, he, -⟩ := s.endOfStream_raise
    exact absurd (by rw [he]; rfl) hne
  | data b u h hp hb hd hw hu =>
    obtain ⟨c, d, rfl⟩ := State.memWriteAll_eq hu
    exact absurd rfl hne
  | trailer b h hp hb => exact absurd (by rw [trailerStep_frame]; rfl) hne
  | _ => exact absurd rfl hne

section
variable {s : State} {op : Nibble} {p : Nat} {c : Settings}

theorem SettingsAfter.bank_ne (h : SettingsAfter s op p c) (hne : c.bank ≠ s.bank) : op = 1 := by
  cases h with
  | bank => rfl
  | _ => exact absurd rfl hne

theorem SettingsAfter.width_ne (h : SettingsAfter s op p c) (hne : c.width ≠ s.width) : op = 6 := by
  cases h with
  | setw => rfl
  | _ => exact absurd rfl hne

theorem SettingsAfter.height_ne (h : SettingsAfter s op p c) (hne : c.height ≠ s.height) : op = 7 := by
  cases h with
  | seth => rfl
  | _ => exact absurd rfl hne

theorem SettingsAfter.offset_ne (h : SettingsAfter s op p c) (hne : c.offset ≠ s.offset) : op = 8 := by
  cases h with
  | setoff => rfl
  | _ => exact absurd rfl hne

theorem SettingsAfter.crc_ne (h : SettingsAfter s op p c) (hne : c.crc ≠ s.crc) : op = 0 ∧ p = 5 := by
  cases h with
  | crcrst => exact ⟨rfl, rfl⟩
  | _ => exact absurd rfl hne

theorem SettingsAfter.flags_ne (h : SettingsAfter s op p c) (hne : c.warmboot ≠ s.warmboot ∨ c.nosleep ≠ s.nosleep) :
    op = 9 := by
  cases h with
  | flags => rfl
  | _ => exact (hne.elim (absurd rfl) (absurd rfl))

theorem SettingsAfter.freq_ne (h : SettingsAfter s op p c) (hne : c.freq ≠ s.freq) : op = 5 := by
  cases h with
  | freq => rfl
  | _ => exact absurd rfl hne

end

/-- A step that changes a register `f` of the settings is the dispatch of a command that gives it its new value. -/
theorem step_changes_register {α : Type} (f : Settings → α) {s t : State} (hstep : step s = .next t)
    (hne : f t.settings ≠ f s.settings) :
    ∃ op len p, fetch s = .instr (ofCommand op len p) ∧ SettingsAfter s op p t.settings :=
  (step_cases hstep).settings_after fun h => hne (congrArg f h)

/-- Settles O33: a changed register names the opcode, and with CRC the payload, of the dispatched command. -/
theorem onlyItsCommandWritesARegister : Obligations.OnlyItsCommandWritesARegister := by
  intro s t hstep
  refine ⟨fun hne => ?_, fun hne => ?_, fun hne => ?_, fun hne => ?_, fun hne => ?_, fun hne => ?_, fun hne => ?_⟩
  · obtain ⟨op, len, p, hf, hset⟩ := step_changes_register Settings.bank hstep hne
    obtain rfl := hset.bank_ne hne
    exact ⟨len, p, hf⟩
  · obtain ⟨op, len, p, hf, hset⟩ := step_changes_register Settings.width hstep hne
    obtain rfl := hset.width_ne hne
    exact ⟨len, p, hf⟩
  · obtain ⟨op, len, p, hf, hset⟩ := step_changes_register Settings.height hstep hne
    obtain rfl := hset.height_ne hne
    exact ⟨len, p, hf⟩
  · obtain ⟨op, len, p, hf, hset⟩ := step_changes_register Settings.offset hstep hne
    obtain rfl := hset.offset_ne hne
    exact ⟨len, p, hf⟩
  · obtain ⟨op, len, p, hf, hset⟩ := step_changes_register Settings.crc hstep hne
    obtain ⟨rfl, rfl⟩ := hset.crc_ne hne
    exact ⟨len, hf⟩
  · obtain ⟨op, len, p, hf, hset⟩ := step_changes_register (fun c => (c.warmboot, c.nosleep)) hstep
      fun e => hne.elim (absurd (congrArg Prod.fst e)) (absurd (congrArg Prod.snd e))
    obtain rfl := hset.flags_ne hne
    exact ⟨len, p, hf⟩
  · obtain ⟨op, len, p, hf, hset⟩ := step_changes_register Settings.freq hstep hne
    obtain rfl := hset.freq_ne hne
    exact ⟨len, p, hf⟩

/-! ### The extents (10_state.md R43(b)) -/

theorem StepTo.extents {s t : State} (hs : StepTo s t) (st : StoreId) :
    unsetLe (s.extW st) (t.extW st) ∧ unsetLe (s.extH st) (t.extH st) := by
  have same {u : State} (hw : u.extW st = s.extW st) (hh : u.extH st = s.extH st) :
      unsetLe (s.extW st) (u.extW st) ∧ unsetLe (s.extH st) (u.extH st) := by
    rw [hw, hh]; exact ⟨unsetLe_refl _, unsetLe_refl _⟩
  cases hs with
  | dispatchCmd b _ h hp hb hl ht =>
    obtain ⟨-, -, -, -, hext⟩ := ht.stores
    exact hext st
  | dispatchPayload b _ h hp hb hr ht =>
    obtain ⟨-, -, -, -, hext⟩ := ht.stores
    exact hext st
  | eos h hb => exact same (by simp) (by simp)
  | data b u h hp hb hd hw hu =>
    obtain ⟨c, d, rfl⟩ := State.memWriteAll_eq hu
    exact same (by cases st <;> rfl) (by cases st <;> rfl)
  | trailer b h hp hb => exact same (by simp) (by simp)
  | _ => exact same (by cases st <;> rfl) (by cases st <;> rfl)

/-- Settles O40: a command raises an extent or leaves it; no other step writes one. -/
theorem extentsNeverShrink : Obligations.ExtentsNeverShrink := fun _ _ hstep => (step_cases hstep).extents

/-! ### The stores -/

/-- A due data byte whose eight cell writes land gives `t` its stores. -/
structure DataWritten (s t : State) (b : Byte) (u : State) : Prop where
  run : s.top = .run
  data : s.phase = .data
  left : s.blkDone < s.blkBytes
  written : s.memWriteAll s.blkStore (s.dataWrites b) = some u
  store : ∀ st, t.store st = u.store st

/-- Every step leaves both stores as they are, but for a data byte. -/
theorem StepTo.stores {s t : State} (hs : StepTo s t) :
    (∀ st, t.store st = s.store st) ∨ ∃ b u, DataWritten s t b u := by
  have same {u : State} (hc : u.cramStore = s.cramStore) (hb : u.bramStore = s.bramStore) (st : StoreId) :
      u.store st = s.store st := by cases st <;> [exact hc; exact hb]
  cases hs with
  | dispatchCmd b _ h hp hb hl ht =>
    obtain ⟨hc, hb, -⟩ := ht.stores
    exact .inl (same hc hb)
  | dispatchPayload b _ h hp hb hr ht =>
    obtain ⟨hc, hb, -⟩ := ht.stores
    exact .inl (same hc hb)
  | eos h hb => exact .inl (same (by simp) (by simp))
  | data b u h hp hb hd hw hu => exact .inr ⟨b, u, h, hp, hd, hu, fun st => by cases st <;> rfl⟩
  | trailer b h hp hb => exact .inl (same (by simp) (by simp))
  | _ => exact .inl (same rfl rfl)

theorem StepTo.storesCanonical {s t : State} (hs : StepTo s t) (h : s.StoresCanonical) : t.StoresCanonical := by
  rw [State.storesCanonical_iff] at h ⊢
  rcases hs.stores with hst | ⟨b, u, hd⟩
  · exact fun st => hst st ▸ h st
  · have hu := u.storesCanonical_iff.mp (State.memWriteAll_canonical hd.written (s.storesCanonical_iff.mpr h))
    exact fun st => hd.store st ▸ hu st

/-- Settles O39: a step leaves the stores, or makes a data byte's cell writes, which keep the form. -/
theorem everyStepKeepsStoresCanonical : Obligations.EveryStepKeepsStoresCanonical := fun _ _ h hstep =>
  (step_cases hstep).storesCanonical h

/-- Every instruction but the preamble answers what a dispatch step can answer; SUB_UNKNOWN does even with the payload
of a named sub-command, which no decoder gives it. -/
theorem exec_commandTo {i : Instr} (hi : i ≠ .preamble) (s : State) :
    ∃ op len p t, exec i s = .next t ∧ CommandTo s op len p t := by
  have of {op len : Nibble} {p : Nat} (h : ∃ t, exec i s = .next t ∧ CommandTo s op len p t) :
      ∃ op len p t, exec i s = .next t ∧ CommandTo s op len p t := ⟨op, len, p, h⟩
  cases i with
  | preamble => exact absurd rfl hi
  | cram len => exact of (exec_ofCommand 0 len 1 s)
  | bram len => exact of (exec_ofCommand 0 len 3 s)
  | crcrst len => exact of (exec_ofCommand 0 len 5 s)
  | wakeup len => exact of (exec_ofCommand 0 len 6 s)
  | subUnknown len p => exact of (len := len) ⟨_, exec_subUnknown len p s, .error _ (by decide) (by decide)⟩
  | bank len p => exact of (exec_ofCommand 1 len p s)
  | crcchk len p => exact of (exec_ofCommand 2 len p s)
  | rsv3 len p => exact of (exec_ofCommand 3 len p s)
  | rsv4 len p => exact of (exec_ofCommand 4 len p s)
  | freq len p => exact of (exec_ofCommand 5 len p s)
  | setw len p => exact of (exec_ofCommand 6 len p s)
  | seth len p => exact of (exec_ofCommand 7 len p s)
  | setoff len p => exact of (exec_ofCommand 8 len p s)
  | flags len p => exact of (exec_ofCommand 9 len p s)
  | op10 len p => exact of (exec_ofCommand 10 len p s)
  | op11 len p => exact of (exec_ofCommand 11 len p s)
  | op12 len p => exact of (exec_ofCommand 12 len p s)
  | op13 len p => exact of (exec_ofCommand 13 len p s)
  | op14 len p => exact of (exec_ofCommand 14 len p s)
  | op15 len p => exact of (exec_ofCommand 15 len p s)

/-- Settles O32: the preamble writes the synchronizer's registers alone, and no dispatch step writes a store. -/
theorem noCommandWritesAStore : Obligations.NoCommandWritesAStore := by
  intro i s t hexec
  by_cases hi : i = .preamble
  · subst hi
    cases hexec
    exact ⟨rfl, rfl, fun st a => by cases st <;> rfl⟩
  · obtain ⟨op, len, p, u, hu, hc⟩ := exec_commandTo hi s
    obtain rfl : u = t := by rw [hu] at hexec; exact Host.Outcome.next.inj hexec
    obtain ⟨hcram, hbram, hlim, hin, -⟩ := hc.stores
    refine ⟨hin, hlim, fun st a => ?_⟩
    cases st
    · exact congrArg (Memory.read · a) hcram
    · exact congrArg (Memory.read · a) hbram

/-! ### Entry to FAILED and to MODEL_FAULT (60_exceptions.md R182, R186) -/

theorem CommandTo.eq_of_failed {s t : State} {op len : Nibble} {p : Nat} (hc : CommandTo s op len p t)
    (hne : s.top ≠ .failed) (ht : t.top = .failed) :
    ∃ e, e ≠ .noError ∧ e ≠ .unexpectedEndOfStream ∧ t = s.raiseDispatch e op p := by
  cases hc with
  | settings c h => exact absurd ht hne
  | wakeup h => cases ht
  | error e h hs => exact ⟨e, h, hs, rfl⟩
  | block st => exact absurd (by simpa using ht) hne
  | unset => cases ht

theorem CommandTo.eq_of_modelFault {s t : State} {op len : Nibble} {p : Nat} (hc : CommandTo s op len p t)
    (hne : s.top ≠ .modelFault) (ht : t.top = .modelFault) :
    t = s.modelFault .geometryUnset ∧ (s.bank = none ∨ s.width = none ∨ s.height = none ∨ s.offset = none) := by
  cases hc with
  | settings c h => exact absurd ht hne
  | wakeup h => cases ht
  | error e h hs => cases ht
  | block st => exact absurd (by simpa using ht) hne
  | unset hop hp hn => exact ⟨rfl, hn⟩

/-- One of the entries to FAILED that the statement lists. -/
def FailedEntry (s t : State) : Prop :=
  ∃ e c op p, e ≠ .noError ∧ t = failed s e c op p (if s.nextByte = none then 0 else 1) ∧
    (e = .unexpectedEndOfStream ↔ s.nextByte = none)

theorem CommandTo.failedEntry {s t : State} {op len : Nibble} {p : Nat} {b : Byte} (hc : CommandTo s op len p t)
    (hb : s.nextByte = some b) (hne : s.top ≠ .failed) (ht : t.top = .failed) : FailedEntry s t := by
  obtain ⟨e, he, heos, rfl⟩ := hc.eq_of_failed hne ht
  exact ⟨e, _, _, _, he, by rw [hb]; rfl, by simp [hb, heos]⟩

theorem StepTo.failedEntry {s t : State} (hs : StepTo s t) (hne : s.top ≠ .failed) (ht : t.top = .failed) :
    FailedEntry s t := by
  cases hs with
  | eos h hb =>
    obtain ⟨c, op, p, he, -⟩ := s.endOfStream_raise
    exact ⟨.unexpectedEndOfStream, c, op, p, by decide, by rw [he, hb]; rfl, by simp [hb]⟩
  | preamble b h hb hw => cases ht
  | dispatchCmd b _ h hp hb hl hc => exact hc.failedEntry hb hne ht
  | dispatchPayload b _ h hp hb hr hc => exact hc.failedEntry hb hne ht
  | data b u h hp hb hd hw hu => exact absurd ((State.memWriteAll_top hu).symm.trans ht) hne
  | dataLimit b h hp hb hd hw hu => cases ht
  | trailer b h hp hb => exact absurd (by simpa using ht) hne
  | _ => exact absurd ht hne

/-- Settles O46: FAILED is entered at the end of the stream and by an error in a dispatch step, through the one entry. -/
theorem entryToFailedDiscardsOtherWrites : Obligations.EntryToFailedDiscardsOtherWrites := fun _ _ hstep hne ht =>
  (step_cases hstep).failedEntry hne ht

/-- One of the two entries to MODEL_FAULT that the statement lists. -/
def ModelFaultEntry (s t : State) : Prop :=
  (t = modelFaulted s .geometryUnset ∧ (s.bank = none ∨ s.width = none ∨ s.height = none ∨ s.offset = none)) ∨
  (t = modelFaulted s .storeLimitExceeded ∧ s.phase = .data ∧ s.storeLimit ≠ none)

theorem StepTo.modelFaultEntry {s t : State} (hs : StepTo s t) (hne : s.top ≠ .modelFault) (ht : t.top = .modelFault) :
    ModelFaultEntry s t := by
  cases hs with
  | eos h hb => simp at ht
  | preamble b h hb hw => cases ht
  | dispatchCmd b _ h hp hb hl hc => exact .inl (hc.eq_of_modelFault hne ht)
  | dispatchPayload b _ h hp hb hr hc => exact .inl (hc.eq_of_modelFault hne ht)
  | data b u h hp hb hd hw hu => exact absurd ((State.memWriteAll_top hu).symm.trans ht) hne
  | dataLimit b h hp hb hd hw hu =>
    refine .inr ⟨rfl, hp, fun hlim => ?_⟩
    obtain ⟨u, hu'⟩ := s.memWriteAll_unlimited s.blkStore (s.dataWrites b) hlim
    simp [hu] at hu'
  | trailer b h hp hb => exact absurd (by simpa using ht) hne
  | _ => exact absurd ht hne

/-- Settles O47: MODEL_FAULT is entered by a block command before the geometry, and by a data byte that STORE_LIMIT
refuses, which without STORE_LIMIT there is none of. -/
theorem entryToModelFaultDiscardsOtherWrites : Obligations.EntryToModelFaultDiscardsOtherWrites :=
  fun _ _ hstep hne ht => (step_cases hstep).modelFaultEntry hne ht

end Sys2Proof.Machine

/-! Proofs about the synchronizer's scan and the hidden registers: WINDOW is the value of the last four consumed bytes
(40_synchronizer.md R92, R93), and the framing registers hold the command being read (41_framing.md R100, R102). -/

namespace Sys2Proof

/-! ### The last four bytes -/

/-- Byte sequences of one length with one value are the same. -/
theorem beValue_injective {as bs : List Byte} (hlen : as.length = bs.length) (h : beValue as = beValue bs) : as = bs := by
  rw [← beBytes_beValue as, ← beBytes_beValue bs, hlen, h]

namespace Machine

/-- The last four bytes of `bs`, zeros standing in for missing ones (40_synchronizer.md R93). -/
def lastFour (bs : List Byte) : List Byte := (List.replicate 4 0#8 ++ bs).drop bs.length

theorem lastFourValue_eq (bs : List Byte) : lastFourValue bs = beValue (lastFour bs) := rfl

@[simp] theorem lastFour_length (bs : List Byte) : (lastFour bs).length = 4 := by
  rw [lastFour, List.length_drop, List.length_append, List.length_replicate, Nat.add_sub_cancel]

theorem lastFour_concat (bs : List Byte) (b : Byte) : lastFour (bs ++ [b]) = (lastFour bs).tail ++ [b] := by
  rw [lastFour, lastFour, List.tail_drop, ← List.append_assoc,
    List.drop_append_of_le_length (by simp), List.length_append, List.length_singleton]

/-- Fewer than four bytes leave a zero in front. -/
theorem lastFour_head_of_short {bs : List Byte} (h : bs.length < 4) : (lastFour bs).head? = some 0#8 := by
  rw [lastFour, List.head?_drop, List.getElem?_append_left (by simpa using h), List.getElem?_replicate, if_pos h]

/-- The last four of at least four bytes are those at their end. -/
theorem lastFour_take (bs : List Byte) {q : Nat} (h : q + 4 ≤ bs.length) :
    lastFour (bs.take (q + 4)) = (bs.drop q).take 4 := by
  have hlen : (bs.take (q + 4)).length = (List.replicate 4 0#8).length + q := by simp; omega
  rw [lastFour, hlen, List.drop_length_add_append, List.drop_take, Nat.add_sub_cancel_left]

/-! ### The window -/

/-- The window drops its first byte and takes the new one in at its end (40_synchronizer.md R90). -/
theorem shiftWindow_toNat (w : BitVec 32) (b : Byte) : (shiftWindow w b).toNat = w.toNat % 2 ^ 24 * 256 + b.toNat := by
  have hshift : (w <<< 8).toNat = (w.toNat % 2 ^ 24) <<< 8 := by
    rw [BitVec.toNat_shiftLeft, Nat.shiftLeft_eq, Nat.shiftLeft_eq]; omega
  have hbyte : (b.setWidth 32).toNat = b.toNat := BitVec.toNat_setWidth_of_le (by decide)
  rw [shiftWindow, BitVec.toNat_or, hshift, hbyte, ← Nat.shiftLeft_add_eq_or_of_lt b.isLt, Nat.shiftLeft_eq]

/-- WINDOW after one more byte is the value of the last four bytes with it. -/
theorem shiftWindow_lastFourValue {w : BitVec 32} {bs : List Byte} (h : w.toNat = lastFourValue bs) (b : Byte) :
    (shiftWindow w b).toNat = lastFourValue (bs ++ [b]) := by
  rw [shiftWindow_toNat, h, lastFourValue_eq, lastFourValue_eq, lastFour_concat]
  have hlen := lastFour_length bs
  cases hf : lastFour bs with
  | nil => simp [hf] at hlen
  | cons x rest =>
    rw [hf, List.length_cons] at hlen
    have hrest : rest.length = 3 := by omega
    have hlt := beValue_lt rest
    rw [List.tail_cons, beValue_concat, beValue_cons, shiftIn, hrest] at *
    omega

/-- The window is MAGIC exactly where the last four bytes are the preamble. -/
theorem window_eq_magic_iff {w : BitVec 32} {bs : List Byte} (h : w.toNat = lastFourValue bs) :
    w = Config.magic ↔ lastFour bs = Config.preambleBytes := by
  have hmagic : Config.magic.toNat = beValue Config.preambleBytes := by decide
  rw [← BitVec.toNat_inj, h, hmagic, lastFourValue_eq]
  exact ⟨beValue_injective (lastFour_length bs), congrArg beValue⟩

/-- After `k` bytes the last four are the preamble exactly where it occurs four bytes before. -/
theorem lastFour_take_eq_preamble {bs : List Byte} {k : Nat} (hk : k ≤ bs.length) :
    lastFour (bs.take k) = Config.preambleBytes ↔ ∃ q, k = q + 4 ∧ Claims.preambleAt bs q := by
  rcases Nat.lt_or_ge k 4 with hlt | hge
  · have hhead := lastFour_head_of_short (bs := bs.take k) (by simp; omega)
    constructor
    · intro h
      rw [h] at hhead
      simp at hhead
    · rintro ⟨q, rfl, -⟩
      omega
  · obtain ⟨q, rfl⟩ := Nat.exists_eq_add_of_le' hge
    rw [lastFour_take bs hk]
    constructor
    · exact fun h => ⟨q, rfl, h⟩
    · rintro ⟨q', hq, h⟩
      obtain rfl : q = q' := by omega
      exact h

/-! ### The scan (40_synchronizer.md R92) -/

theorem preambleAt_length {bs : List Byte} {p : Nat} (h : Claims.preambleAt bs p) : p + 4 ≤ bs.length := by
  have hlen := congrArg List.length h
  simp at hlen
  omega

theorem take_succ_of_getElem? {bs : List Byte} {k : Nat} {b : Byte} (h : bs[k]? = some b) :
    bs.take (k + 1) = bs.take k ++ [b] := by
  rw [List.take_add_one, h, Option.toList_some]

/-- Before the end of the first preamble every byte is shifted into WINDOW, which holds the last four. -/
theorem runSteps_scan {s : State} {p : Nat} (h : s.top = .sync) (h0 : s.streamOffset = 0) (hw : s.window = 0#32)
    (hat : Claims.preambleAt s.input p) (hfirst : ∀ q < p, ¬ Claims.preambleAt s.input q) {k : Nat} (hk : k < p + 4) :
    ∃ w, s.runSteps k = .next { s with window := w, streamOffset := k } ∧ w.toNat = lastFourValue (s.input.take k) := by
  induction k with
  | zero => exact ⟨0#32, by rw [State.runSteps_zero, ← hw, ← h0], by rw [List.take_zero]; rfl⟩
  | succ k ih =>
    obtain ⟨w, hrun, hval⟩ := ih (by omega)
    have hlen := preambleAt_length hat
    obtain ⟨b, hb⟩ : ∃ b, s.input[k]? = some b := ⟨_, List.getElem?_eq_getElem (by omega)⟩
    have hnext := shiftWindow_lastFourValue hval b
    rw [← take_succ_of_getElem? hb] at hnext
    have hno : shiftWindow w b ≠ Config.magic := by
      rw [ne_eq, window_eq_magic_iff hnext, lastFour_take_eq_preamble (by omega)]
      rintro ⟨q, hq, hpre⟩
      exact hfirst q (by omega) hpre
    exact ⟨shiftWindow w b, (State.runSteps_last hrun).trans (step_of_fetch_other (fetch_shiftSync h hb hno)), hnext⟩

/-- Settles O14: no byte before the preamble's last makes the window MAGIC, and that one does. -/
theorem synchronizerStopsAtTheFirstPreamble : Obligations.SynchronizerStopsAtTheFirstPreamble := by
  intro s p h h0 hw hat hfirst
  refine ⟨fun k hk => ?_, ?_⟩
  · obtain ⟨w, hrun, -⟩ := runSteps_scan h h0 hw hat hfirst hk
    exact ⟨_, hrun, h, rfl⟩
  · obtain ⟨w, hrun, hval⟩ := runSteps_scan h h0 hw hat hfirst (Nat.lt_succ_self (p + 3))
    have hlen := preambleAt_length hat
    obtain ⟨b, hb⟩ : ∃ b, s.input[p + 3]? = some b := ⟨_, List.getElem?_eq_getElem (by omega)⟩
    have hnext := shiftWindow_lastFourValue hval b
    rw [← take_succ_of_getElem? hb] at hnext
    have hmatch := (window_eq_magic_iff hnext).mpr ((lastFour_take_eq_preamble hlen).mpr ⟨p, rfl, hat⟩)
    exact (State.runSteps_last hrun).trans (step_of_fetch_instr
      (fetch_preamble (s := { s with window := w, streamOffset := p + 3 }) h hb hmatch))

/-! ### The hidden registers -/

theorem State.streamOffset_lt {s : State} {b : Byte} (hb : s.nextByte = some b) : s.streamOffset < s.input.length :=
  (List.getElem?_eq_some_iff.mp hb).1

/-- No step leaves the position beyond INPUT. -/
theorem StepTo.position {s t : State} (hs : StepTo s t) (h : s.streamOffset ≤ s.input.length) :
    t.streamOffset ≤ t.input.length := by
  rw [hs.input.1]
  rcases hs.streamOffset with ⟨⟨-, hne⟩, hoff⟩ | ⟨-, hoff⟩
  · obtain ⟨b, hb⟩ := Option.ne_none_iff_exists'.mp hne
    have := State.streamOffset_lt hb
    omega
  · omega

/-- A step that ends in SYNC shifted a byte into WINDOW. -/
theorem StepTo.eq_shiftSync {s t : State} (hs : StepTo s t) (ht : t.top = .sync) :
    ∃ b, s.nextByte = some b ∧ s.top = .sync ∧ t = s.shiftSync b := by
  by_cases h : s.top = .sync
  · cases hs with
    | quiet hq => simp [State.active, h] at hq
    | eos => simp at ht
    | syncByte b _ hb hw => exact ⟨b, hb, h, rfl⟩
    | preamble => cases ht
    | _ => simp_all
  · exact absurd ht (hs.sync_frame h).1

/-- The payload being read: the command byte stands at CMD_OFFSET, and PAYLOAD and PAY_REMAIN agree with the bytes after
it (41_framing.md R100, R102). -/
def CommandTracked (s : State) : Prop :=
  1 ≤ s.payRemain ∧
  ∃ c got, s.cmdOffset = some c ∧ s.consumed.drop c = cmdByte s.cmdOp s.cmdLen :: got ∧
    c < s.streamOffset ∧ got.length + s.payRemain = s.cmdLen.toNat ∧ s.payload = beValue got

theorem openCommand_tracked {s : State} {b : Byte} (hb : s.nextByte = some b) (hl : lenField b ≠ 0) :
    CommandTracked (s.openCommand b) := by
  have hlt := State.streamOffset_lt hb
  refine ⟨?_, s.streamOffset, [], rfl, ?_, Nat.lt_succ_self _, Nat.zero_add _, rfl⟩
  · rw [State.openCommand_payRemain, Nat.one_le_iff_ne_zero, ne_eq, ← nibble_eq_zero]
    exact hl
  · change (s.input.take (s.streamOffset + 1)).drop s.streamOffset = cmdByte (opField b) (lenField b) :: []
    rw [take_succ_of_getElem? hb, cmdByte_fields]
    exact List.drop_left' (by rw [List.length_take]; omega)

theorem shiftPayload_tracked {s : State} {b : Byte} (hb : s.nextByte = some b) (hr : 2 ≤ s.payRemain)
    (h : CommandTracked s) : CommandTracked (s.shiftPayload b) := by
  obtain ⟨-, c, got, hc, hdrop, hlt, hlen, hpay⟩ := h
  have hpos := State.streamOffset_lt hb
  refine ⟨?_, c, got ++ [b], hc, ?_, Nat.lt_succ_of_lt hlt, ?_, ?_⟩
  · rw [State.shiftPayload_payRemain]; omega
  · change (s.input.take (s.streamOffset + 1)).drop c = cmdByte s.cmdOp s.cmdLen :: (got ++ [b])
    rw [take_succ_of_getElem? hb, List.drop_append_of_le_length (by rw [List.length_take]; omega), hdrop,
      List.cons_append]
  · rw [State.shiftPayload_payRemain, State.shiftPayload_cmdLen, List.length_append, List.length_singleton]; omega
  · rw [State.shiftPayload_payload, hpay, beValue_concat]

/-- A dispatch step ends the payload. -/
theorem CommandTo.not_payload {s t : State} {op len : Nibble} {p : Nat} (hc : CommandTo s op len p t)
    (ht : t.top = .run) : t.phase ≠ .payload := by
  cases hc with
  | settings c h => exact nofun
  | block st bank w h off =>
    rw [State.openBlock_phase]
    split <;> exact nofun
  | _ => cases ht

/-- What a trailer byte makes of PHASE. -/
theorem trailerStep_phase (b : Byte) (s : State) :
    (trailerStep b s).phase = if s.trlDone = 0 then s.phase else .cmd := by
  unfold trailerStep; split <;> rfl

/-- A step that ends in a payload opened it or shifted a byte into it. -/
theorem StepTo.payload_cases {s t : State} (hs : StepTo s t) (ht : t.top = .run) (hp : t.phase = .payload) :
    ∃ b, s.nextByte = some b ∧ s.top = .run ∧
      ((lenField b ≠ 0 ∧ t = s.openCommand b) ∨ (s.phase = .payload ∧ 2 ≤ s.payRemain ∧ t = s.shiftPayload b)) := by
  cases hs with
  | quiet hq => simp [State.active, ht] at hq
  | eos => simp at ht
  | syncByte b hsync hb hw => simp [hsync] at ht
  | preamble => cases hp
  | openCommand b hrun hcmd hb hl => exact ⟨b, hb, hrun, .inl ⟨hl, rfl⟩⟩
  | dispatchCmd b _ hrun hcmd hb hl hc => exact absurd hp (hc.not_payload ht)
  | shiftPayload b hrun hpay hb hr => exact ⟨b, hb, hrun, .inr ⟨hpay, hr, rfl⟩⟩
  | dispatchPayload b _ hrun hpay hb hr hc => exact absurd hp (hc.not_payload ht)
  | data b u hrun hdata hb hd hw hu =>
    dsimp only at hp
    split at hp
    · cases hp
    · rw [hdata] at hp; cases hp
  | dataLimit => cases ht
  | trailer b hrun htrl hb =>
    rw [trailerStep_phase, htrl] at hp
    split at hp <;> cases hp

theorem StepTo.commandTracked {s t : State} (hs : StepTo s t)
    (h : s.top = .run → s.phase = .payload → CommandTracked s) (ht : t.top = .run) (hp : t.phase = .payload) :
    CommandTracked t := by
  obtain ⟨b, hb, hrun, ⟨hl, rfl⟩ | ⟨hpay, hr, rfl⟩⟩ := hs.payload_cases ht hp
  · exact openCommand_tracked hb hl
  · exact shiftPayload_tracked hb hr (h hrun hpay)

/-- Settles O42: a SYNC byte goes into WINDOW as its last byte, and a command byte or payload byte into the framing
registers; every other step leaves the two conditions void. -/
theorem hiddenRegistersTrackTheInput : Obligations.HiddenRegistersTrackTheInput := by
  intro s t h hstep
  have hs := step_cases hstep
  refine ⟨hs.position h.position, fun ht => ?_, hs.commandTracked h.command⟩
  obtain ⟨b, hb, hsync, rfl⟩ := hs.eq_shiftSync ht
  change (shiftWindow s.window b).toNat = lastFourValue (s.input.take (s.streamOffset + 1))
  rw [take_succ_of_getElem? hb]
  exact shiftWindow_lastFourValue (h.window hsync) b

end Machine

end Sys2Proof

/-! Proofs about the bit stores and the block consumer: MemWrite and STORE_LIMIT (20_memory.md R52), BlockStart
(43_subcommands.md R150), the DATA step (R152), the TRAILER step (R153) and a block's closed form (R156). -/

namespace Sys2Proof.Machine

open Sys2Proof.Claims

/-! ### MemWrite -/

theorem State.memWrite_eq_none {s : State} {st : StoreId} {a : CellAddr} {bit : Bit} :
    s.memWrite st a bit = none ↔ s.memRead st a = none ∧ s.storeLimit = some s.cellCount := by
  unfold State.memWrite
  split
  · next h => simp [h]
  · next h => simp [h]

theorem State.memWrite_frame {s t : State} {st : StoreId} {a : CellAddr} {bit : Bit} (h : s.memWrite st a bit = some t) :
    t = { s with cramStore := t.cramStore, bramStore := t.bramStore } := by
  rw [(State.memWrite_some h).1]
  cases st <;> rfl

/-- Settles O38: MemWrite refuses a new cell at STORE_LIMIT alone, and what it writes is read back. -/
theorem memWriteReplacesOneCell : Obligations.MemWriteReplacesOneCell := by
  refine fun s st a bit => ⟨fun hr hlim => State.memWrite_eq_none.mpr ⟨hr, hlim⟩, fun h => ?_⟩
  obtain ⟨t, ht⟩ : ∃ t, s.memWrite st a bit = some t := by
    refine Option.ne_none_iff_exists'.mp fun hnone => ?_
    obtain ⟨hr, hlim⟩ := State.memWrite_eq_none.mp hnone
    exact h.elim (absurd hr) (absurd hlim)
  refine ⟨t, ht, State.memWrite_frame ht, by rw [State.memWrite_read ht, if_pos ⟨rfl, rfl⟩], fun st' a' hne => ?_⟩
  rw [State.memWrite_read ht, if_neg]
  rintro ⟨rfl, rfl⟩
  exact hne rfl

/-! ### Several cell writes under STORE_LIMIT -/

/-- How many of the cells written hold no bit yet. -/
def State.newWrites (s : State) (st : StoreId) (ws : List (CellAddr × Bit)) : Nat :=
  ws.countP fun w => (s.memRead st w.1).isNone

theorem State.newWrites_cons (s : State) (st : StoreId) (a : CellAddr) (bit : Bit) (ws : List (CellAddr × Bit)) :
    s.newWrites st ((a, bit) :: ws) = s.newWrites st ws + if s.memRead st a = none then 1 else 0 := by
  simp only [State.newWrites, List.countP_cons, Option.isNone_iff_eq_none]

/-- Writing one cell leaves the others as new as they were. -/
theorem State.newWrites_memWrite {s u : State} {st : StoreId} {a : CellAddr} {bit : Bit} {ws : List (CellAddr × Bit)}
    (hu : s.memWrite st a bit = some u) (ha : a ∉ ws.map Prod.fst) : u.newWrites st ws = s.newWrites st ws := by
  refine List.countP_congr fun w hw => ?_
  have hne : a ≠ w.1 := fun h => ha (h ▸ List.mem_map_of_mem hw)
  rw [State.memWrite_read hu, if_neg fun h => hne h.2]

/-- Under STORE_LIMIT `n` the writes to distinct cells land exactly where the new cells among them fit, and then add
them. -/
theorem State.memWriteAll_limited {s : State} {st : StoreId} {ws : List (CellAddr × Bit)} {n : Nat}
    (hs : s.StoresCanonical) (hlim : s.storeLimit = some n) (hn : s.cellCount ≤ n) (hd : (ws.map Prod.fst).Nodup) :
    (n < s.cellCount + s.newWrites st ws → s.memWriteAll st ws = none) ∧
    (s.cellCount + s.newWrites st ws ≤ n →
      ∃ t, s.memWriteAll st ws = some t ∧ t.cellCount = s.cellCount + s.newWrites st ws) := by
  induction ws generalizing s with
  | nil => exact ⟨fun h => absurd hn (Nat.not_le_of_lt h), fun _ => ⟨s, rfl, rfl⟩⟩
  | cons w rest ih =>
    obtain ⟨a, bit⟩ := w
    rw [List.map_cons, List.nodup_cons] at hd
    rw [State.newWrites_cons]
    cases hu : s.memWrite st a bit with
    | none =>
      obtain ⟨hr, hfull⟩ := State.memWrite_eq_none.mp hu
      obtain rfl : n = s.cellCount := Option.some.inj (hlim.symm.trans hfull)
      refine ⟨fun _ => by simp only [State.memWriteAll, hu], fun h => ?_⟩
      rw [if_pos hr] at h
      omega
    | some u =>
      have hlimu : u.storeLimit = some n := by rw [(State.memWrite_some hu).1]; simpa using hlim
      have hcount := State.memWrite_count hu hs
      have hle : u.cellCount ≤ n := by
        by_cases hr : s.memRead st a = none
        · have hne : s.cellCount ≠ n := fun e => (State.memWrite_some hu).2 ⟨hr, e ▸ hlim⟩
          rw [if_pos hr] at hcount
          omega
        · rwa [hcount, if_neg hr]
      have hrest := ih (State.memWrite_canonical hu hs) hlimu hle hd.2
      rw [State.newWrites_memWrite hu hd.1, hcount] at hrest
      simp only [State.memWriteAll, hu]
      rwa [Nat.add_comm (s.newWrites st rest), ← Nat.add_assoc]

/-! ### The DATA step (43_subcommands.md R152) -/

theorem newCells_eq_newWrites (s : State) (b : Byte) : newCells s = s.newWrites s.blkStore (s.dataWrites b) := by
  rw [newCells, State.newWrites, State.dataWrites, List.countP_map, List.countP_eq_length_filter]
  rfl

section
variable {s u : State} {b : Byte}

theorem dataStep_of_not_due (hd : ¬ (s.blkDone < s.blkBytes ∧ 0 < s.blkW)) :
    dataStep b s = .fault .blockCounterOutOfRange := if_neg hd

theorem dataStep_of_written (hd : s.blkDone < s.blkBytes ∧ 0 < s.blkW)
    (hu : s.memWriteAll s.blkStore (s.dataWrites b) = some u) :
    dataStep b s = .next { u with
      streamOffset := s.streamOffset + 1, blkDone := s.blkDone + 1,
      phase := if s.blkDone + 1 = s.blkBytes then .trailer else s.phase } := by
  rw [dataStep, if_pos hd, hu]

theorem dataStep_of_limit (hd : s.blkDone < s.blkBytes ∧ 0 < s.blkW)
    (hu : s.memWriteAll s.blkStore (s.dataWrites b) = none) :
    dataStep b s = .next (s.modelFault .storeLimitExceeded) := by
  rw [dataStep, if_pos hd, hu]

theorem step_dataDue (h : DataDue s b) : step s = dataStep b s := by
  simp only [step, fetch, h.top, h.byte, fetchRun, h.phase]

/-- A due data byte whose cell writes land. -/
theorem step_data (h : DataDue s b) (hu : s.memWriteAll s.blkStore (s.dataWrites b) = some u) :
    step s = .next { u with
      streamOffset := s.streamOffset + 1, blkDone := s.blkDone + 1,
      phase := if s.blkDone + 1 = s.blkBytes then .trailer else s.phase } :=
  (step_dataDue h).trans (dataStep_of_written ⟨h.left, h.width⟩ hu)

/-- A due data byte that STORE_LIMIT refuses. -/
theorem step_dataLimit (h : DataDue s b) (hu : s.memWriteAll s.blkStore (s.dataWrites b) = none) :
    step s = .next (modelFaulted s .storeLimitExceeded) :=
  (step_dataDue h).trans (dataStep_of_limit ⟨h.left, h.width⟩ hu)

end

/-- Settles O34: where the writes land, the eight distinct cells read their bits, and no other cell changes. -/
theorem dataByteFillsEightCells : Obligations.DataByteFillsEightCells := by
  intro s b h hroom
  obtain ⟨u, hu⟩ : ∃ u, s.memWriteAll s.blkStore (s.dataWrites b) = some u := by
    cases hlim : s.storeLimit with
    | none => exact s.memWriteAll_unlimited _ _ hlim
    | some n =>
      obtain ⟨hs, hfit⟩ := hroom n hlim
      rw [newCells_eq_newWrites s b] at hfit
      obtain ⟨u, hu, -⟩ := (State.memWriteAll_limited hs hlim (by omega) (s.dataWrites_nodup b)).2 hfit
      exact ⟨u, hu⟩
  obtain ⟨hwritten, hother⟩ := State.memWriteAll_read hu (s.dataWrites_nodup b)
  refine ⟨_, step_data h hu, ?_, fun n hn => ?_, fun st a ha => ?_⟩
  · obtain ⟨c, d, rfl⟩ := State.memWriteAll_eq hu
    simp only [h.phase]
  · exact hwritten _ (State.mem_dataWrites.mpr ⟨n, hn, rfl⟩)
  · refine Eq.trans (b := u.memRead st a) (by cases st <;> rfl) (hother st a fun hst hmem => ?_)
    obtain ⟨n, hn, hcell⟩ := State.mem_dataCells.mp hmem
    exact ha hst.symm n hn hcell

/-- Settles O35: the writes land exactly where the byte's new cells fit. -/
theorem storeLimitStopsTheByteThatExceedsIt : Obligations.StoreLimitStopsTheByteThatExceedsIt := by
  intro s b n h hs hlim hn
  obtain ⟨hover, hfit⟩ := State.memWriteAll_limited (st := s.blkStore) hs hlim hn (s.dataWrites_nodup b)
  rw [newCells_eq_newWrites s b]
  refine ⟨fun hlt => step_dataLimit h (hover hlt), fun hle => ?_⟩
  obtain ⟨u, hu, hcount⟩ := hfit hle
  exact ⟨_, step_data h hu, (State.memWriteAll_top hu).trans h.top, hcount⟩

/-! ### The TRAILER step (43_subcommands.md R153) -/

theorem step_trailer {s : State} {b : Byte} (h : s.top = .run) (hp : s.phase = .trailer) (hb : s.nextByte = some b) :
    step s = .next (trailerStep b s) := by
  simp only [step, fetch, h, hb, fetchRun, hp]

theorem trailerFlag_eq_or_decide (nz : Bit) (b : Byte) : trailerFlag nz b = (nz || decide (b ≠ 0#8)) := by
  by_cases hb : b = 0#8 <;> simp [trailerFlag, hb]

/-- Settles O36: TRL_DONE tells the first trailer byte from the second. -/
theorem trailerBytesEndTheBlock : Obligations.TrailerBytesEndTheBlock := by
  intro s b h hp hb
  have hwarn : (if trailerFlag s.trlNonzero b then s.trailerWarnings + 1 else s.trailerWarnings) =
      s.trailerWarnings + (if s.trlNonzero = true ∨ b ≠ 0#8 then 1 else 0) := by
    simp only [trailerFlag_eq_or_decide, Bool.or_eq_true, decide_eq_true_eq]
    split <;> rfl
  rw [step_trailer h hp hb, trailerStep, hwarn, trailerFlag_eq_or_decide]

/-! ### A whole block (43_subcommands.md R156) -/

theorem blockCell_injective {s : State} {i j : Nat} (h : blockCell s i = blockCell s j) : i = j := by
  obtain ⟨-, hx, hy⟩ := CellAddr.mk.inj h
  rw [← Nat.div_add_mod i s.blkW, ← Nat.div_add_mod j s.blkW, hx, Nat.add_right_cancel hy]

/-- Bit `i` of the block whose data starts at the position (43_subcommands.md R156). -/
def blockBit (s : State) (i : Nat) : Bit := (s.input.getD (s.streamOffset + i / 8) 0).getLsbD (7 - i % 8)

/-- `t` is `s` after the first `k` data bytes of its block. -/
structure BlockRead (s : State) (k : Nat) (t : State) : Prop where
  frame : t = { s with
    cramStore := t.cramStore, bramStore := t.bramStore, streamOffset := s.streamOffset + k, blkDone := k,
    phase := if k = s.blkBytes then .trailer else .data }
  written : ∀ i < 8 * k, t.memRead s.blkStore (blockCell s i) = some (blockBit s i)
  other : ∀ st a, (st = s.blkStore → ∀ i < 8 * k, a ≠ blockCell s i) → t.memRead st a = s.memRead st a

/-- One more data byte: its eight cells are the next eight of the block. -/
theorem BlockRead.step {s t : State} {k : Nat} (h : BlockRead s k t) (hrun : s.top = .run)
    (hlim : s.storeLimit = none) (hw : 0 < s.blkW) (hk : k < s.blkBytes)
    (hin : s.streamOffset + s.blkBytes ≤ s.input.length) : ∃ t', step t = .next t' ∧ BlockRead s (k + 1) t' := by
  obtain ⟨hframe, hwritten, hother⟩ := h
  obtain ⟨b, hb⟩ : ∃ b, s.input[s.streamOffset + k]? = some b := ⟨_, List.getElem?_eq_getElem (by omega)⟩
  rw [if_neg (by omega)] at hframe
  have hdue : DataDue t b := by rw [hframe]; exact ⟨hrun, rfl, hb, hk, hw⟩
  have hlimt : t.storeLimit = none := by rw [hframe]; exact hlim
  have hstore : t.blkStore = s.blkStore := by rw [hframe]
  have hcell (n : Nat) : blockCell t (8 * t.blkDone + n) = blockCell s (8 * k + n) := by rw [hframe]; rfl
  obtain ⟨t', hstep, hframe', hwritten', hother'⟩ := dataByteFillsEightCells t b hdue (by simp [hlimt])
  simp only [hstore, hcell] at hwritten' hother'
  refine ⟨t', hstep, ?_, fun i hi => ?_, fun st a ha => ?_⟩
  · rw [hframe] at hframe'
    exact hframe'
  · rcases Nat.lt_or_ge i (8 * k) with hlt | hge
    · rw [hother' _ _ fun _ n hn hcell => by have := blockCell_injective hcell; omega]
      exact hwritten i hlt
    · obtain ⟨n, rfl⟩ := Nat.exists_eq_add_of_le hge
      have hdiv : (8 * k + n) / 8 = k := by omega
      have hmod : (8 * k + n) % 8 = n := by omega
      rw [hwritten' n (by omega), blockBit, hdiv, hmod, List.getD_eq_getElem?_getD, hb, Option.getD_some]
  · rw [hother' st a fun hst n hn => ha hst _ (by omega)]
    exact hother st a fun hst i hi => ha hst i (by omega)

/-- By induction on the number of data bytes. -/
theorem runSteps_block {s : State} (hrun : s.top = .run) (hp : s.phase = .data) (h0 : s.blkDone = 0)
    (hpos : 0 < s.blkBytes) (hlim : s.storeLimit = none) (hw : 0 < s.blkW)
    (hin : s.streamOffset + s.blkBytes ≤ s.input.length) {k : Nat} (hk : k ≤ s.blkBytes) :
    ∃ t, s.runSteps k = .next t ∧ BlockRead s k t := by
  induction k with
  | zero =>
    refine ⟨s, rfl, ?_, fun i hi => absurd hi (Nat.not_lt_zero i), fun _ _ _ => rfl⟩
    rw [if_neg (by omega), Nat.add_zero, ← h0, ← hp]
  | succ k ih =>
    obtain ⟨t, hrunk, hread⟩ := ih (by omega)
    obtain ⟨t', hstep, hread'⟩ := hread.step hrun hlim hw (by omega) hin
    exact ⟨t', (State.runSteps_last hrunk).trans hstep, hread'⟩

/-- Settles O37: the closed form after all data bytes, which are an eighth of the block's bits. -/
theorem wholeBlockFillsItsCells : Obligations.WholeBlockFillsItsCells := by
  intro s hrun hp h0 hpos hbits hin hlim
  have hw : 0 < s.blkW := by
    refine Nat.pos_of_ne_zero fun hz => ?_
    rw [hz, Nat.zero_mul] at hbits
    omega
  obtain ⟨t, hrunt, hread⟩ := runSteps_block hrun hp h0 hpos hlim hw hin (Nat.le_refl _)
  obtain ⟨hframe, hwritten, hother⟩ := hread
  rw [if_pos rfl] at hframe
  rw [hbits] at hwritten hother
  exact ⟨t, hrunt, hframe, hwritten, hother⟩

/-! ### BlockStart (43_subcommands.md R150, R151) -/

theorem exec_cram (len : Nibble) (s : State) : exec (.cram len) s = .next (blockStart .cram len 1 s) := rfl

theorem exec_bram (len : Nibble) (s : State) : exec (.bram len) s = .next (blockStart .bram len 3 s) := rfl

theorem maxUnset_eq_raised (x : OrUnset Nat) (v : Nat) : maxUnset x v = raised x v := by
  cases x with
  | none => rw [raised, Option.getD_none, Nat.zero_max]; rfl
  | some u => rfl

section
variable {s : State} {bank w h off : Nat} (st : StoreId) (len : Nibble) (p : Nat)

theorem blockStart_of_legal (hb : s.bank = some bank) (hw : s.width = some w) (hh : s.height = some h)
    (ho : s.offset = some off) (hm : w * h % 8 = 0) :
    blockStart st len p s = (s.endFraming 0 len p).openBlock st bank w h off := by
  simp only [blockStart, hb, hw, hh, ho, if_neg (not_not.mpr hm)]

theorem blockStart_of_malformed (hb : s.bank = some bank) (hw : s.width = some w) (hh : s.height = some h)
    (ho : s.offset = some off) (hm : w * h % 8 ≠ 0) :
    blockStart st len p s = s.raiseDispatch .malformedBlockSize 0 p := by
  simp only [blockStart, hb, hw, hh, ho, if_pos hm]

theorem blockStart_of_unset (hn : s.bank = none ∨ s.width = none ∨ s.height = none ∨ s.offset = none) :
    blockStart st len p s = s.modelFault .geometryUnset := by
  unfold blockStart
  split
  · next hb hw hh ho => simp [hb, hw, hh, ho] at hn
  · rfl

end

/-- Settles O30: the legal branch of BlockStart, its framing and extents as the statement writes them out. -/
theorem blockStartLatchesAndGrowsTheExtent : Obligations.BlockStartLatchesAndGrowsTheExtent := by
  intro s len bank w h off hb hw hh ho hm
  simp only [exec_cram, exec_bram, blockStart_of_legal _ _ _ hb hw hh ho hm, ← State.endFraming_eq_framed,
    ← maxUnset_eq_raised]
  exact ⟨rfl, rfl⟩

/-- Settles O31: the malformed branch of BlockStart, and the one with a geometry register unset. -/
theorem blockStartRefusesBadGeometry : Obligations.BlockStartRefusesBadGeometry := by
  refine ⟨fun s len bank w h off hb hw hh ho hm => ?_, fun s len hn => ?_⟩
  · simp only [exec_cram, exec_bram, blockStart_of_malformed _ _ _ hb hw hh ho hm,
      State.raiseDispatch_eq_failedDispatch, and_self]
  · simp only [exec_cram, exec_bram, blockStart_of_unset _ _ _ hn]
    exact ⟨rfl, rfl⟩

end Sys2Proof.Machine

/-! Proofs about reset, the end of the stream in the scan, a payload and a trailer, the remaining commands, the quiescent
states, and what the host reads. -/

namespace Sys2Proof.Machine

open Sys2Proof.Claims

/-! ### Reset (10_state.md R46, 70_reset_and_hazards.md R210) -/

/-- Settles O1: the definition of reset, read off. -/
theorem resetGivesTheTabledValues : Obligations.ResetGivesTheTabledValues := rfl

/-- Settles O2: restart reads nothing of the state but STORE_LIMIT. -/
theorem restartKeepsNothingOfTheDecode : Obligations.RestartKeepsNothingOfTheDecode := fun s t stream hlim =>
  ⟨by rw [State.restart, State.restart, hlim], rfl, rfl, rfl⟩

/-! ### The end of the stream (40_synchronizer.md R91, 41_framing.md R105, 43_subcommands.md R155) -/

theorem State.endOfStream_sync {s : State} (h : s.top = .sync) :
    s.endOfStream = s.raise .unexpectedEndOfStream none none none 0 := by
  simp only [State.endOfStream, h]

theorem State.endOfStream_payload {s : State} (h : s.top = .run) (hp : s.phase = .payload) :
    s.endOfStream = s.raise .unexpectedEndOfStream s.cmdOffset (some s.cmdOp) none 0 := by
  simp only [State.endOfStream, h, hp]

theorem State.endOfStream_trailer {s : State} (h : s.top = .run) (hp : s.phase = .trailer) :
    s.endOfStream = s.raise .unexpectedEndOfStream s.cmdOffset (some 0) (some s.payload) 0 := by
  simp only [State.endOfStream, h, hp]

/-- Settles O20: TOP and PHASE select the error record. -/
theorem endOfStreamInScanPayloadAndTrailer : Obligations.EndOfStreamInScanPayloadAndTrailer := by
  refine ⟨fun s h hb => ?_, fun s h hp hb => ?_, fun s h hp hb => ?_⟩
  · rw [step_eos (s.active_iff.mpr (.inl h)) hb, State.endOfStream_sync h, State.raise_eq_failed]
  · rw [step_eos (s.active_iff.mpr (.inr h)) hb, State.endOfStream_payload h hp, State.raise_eq_failed]
  · rw [step_eos (s.active_iff.mpr (.inr h)) hb, State.endOfStream_trailer h hp, State.raise_eq_failed]

/-! ### CRCCHK, CRCRST, WAKEUP and the reserved opcodes -/

theorem exec_crcchk (len : Nibble) (p : Nat) (s : State) : exec (.crcchk len p) s = .next (s.commandDone 2 len p) := rfl

theorem exec_crcrst (len : Nibble) (s : State) :
    exec (.crcrst len) s = .next { s.commandDone 0 len 5 with crc := some 0xFFFF#16 } := rfl

theorem exec_wakeup (len : Nibble) (s : State) :
    exec (.wakeup len) s = .next { s.endFraming 0 len 6 with top := .terminated } := rfl

theorem exec_rsv3 (len : Nibble) (p : Nat) (s : State) :
    exec (.rsv3 len p) s = .next (s.raiseDispatch .unknownCommand 3 p) := rfl

theorem exec_rsv4 (len : Nibble) (p : Nat) (s : State) :
    exec (.rsv4 len p) s = .next (s.raiseDispatch .unknownCommand 4 p) := rfl

/-- Settles O24: CRCCHK is the completed dispatch step and no more. -/
theorem crcCheckChangesNothing : Obligations.CrcCheckChangesNothing := fun s len p => by
  rw [exec_crcchk, State.commandDone_eq_framed]

/-- Settles O25: the completed dispatch step and CRC. -/
theorem crcResetWritesAllOnes : Obligations.CrcResetWritesAllOnes := fun s len => by
  simp only [exec_crcrst, State.commandDone_eq_framed]

/-- Settles O26: the framing's writes and TOP. -/
theorem wakeupTerminatesTheDecode : Obligations.WakeupTerminatesTheDecode := fun s len => by
  rw [exec_wakeup, State.endFraming_eq_framed]

/-- Settles O29: each opcode's dispatch raises UnknownCommand, the entry to FAILED the statement writes out. -/
theorem reservedOpcodesFail : Obligations.ReservedOpcodesFail := by
  refine fun s len p => ⟨?_, ?_⟩
  · rw [exec_rsv3, State.raiseDispatch_eq_failedDispatch]
  · rw [exec_rsv4, State.raiseDispatch_eq_failedDispatch]

/-! ### Quiescence (70_reset_and_hazards.md R215) -/

/-- CORE has nothing more to do. -/
abbrev Quiescent (s : State) : Prop := s.top = .terminated ∨ s.top = .failed ∨ s.top = .modelFault

theorem fetch_quiescent {s : State} (h : Quiescent s) : fetch s = .other (.next s) := by
  rcases h with h | h | h <;> simp only [fetch, h]

theorem step_quiescent {s : State} (h : Quiescent s) : step s = .next s := step_of_fetch_other (fetch_quiescent h)

theorem runSteps_quiescent {s : State} (h : Quiescent s) (n : Nat) : s.runSteps n = .next s := by
  induction n with
  | zero => rfl
  | succ n ih => rw [State.runSteps_last ih, step_quiescent h]

/-- Settles O45: by induction on the number of steps. -/
theorem quiescentCoreStaysAsItIs : Obligations.QuiescentCoreStaysAsItIs := fun _ h =>
  ⟨step_quiescent h, runSteps_quiescent h⟩

theorem quiescent_iff (s : State) : Quiescent s ↔ s.active = false := by
  cases h : s.top <;> simp [Quiescent, State.active, h]

/-! ### What the host reads (10_state.md R45, 70_reset_and_hazards.md R221) -/

/-- Settles O52: TOP selects the readout. -/
theorem readoutFollowsTop : Obligations.ReadoutFollowsTop := by
  refine fun s => ⟨?_, fun h => ?_, fun h => ?_, fun h => ?_⟩
  · rintro (h | h) <;> simp only [State.readout, h]
  · simp only [State.readout, h]; rfl
  · simp only [State.readout, h]; rfl
  · simp only [State.readout, h]

/-- Only NO_ERROR has the number 0 (60_exceptions.md R180). -/
theorem ErrCode.number_ne_zero {e : ErrCode} (h : e ≠ .noError) : e.number ≠ 0 := by
  cases e with
  | noError => exact absurd rfl h
  | _ => decide

theorem accepts_of_active {s : State} (h : s.active = true) : s.accepts = true ↔ s.nextByte ≠ none := by
  rw [State.accepts, h, Bool.true_and, Option.isSome_iff_ne_none]

theorem accepts_quiescent {s : State} (h : Quiescent s) : s.accepts = false := by
  rw [State.accepts, (quiescent_iff s).mp h, Bool.false_and]

/-- Settles O53: TOP selects the signals; the error record is empty in TERMINATED and holds an error in FAILED. -/
theorem interfaceSignalsFollowTop : Obligations.InterfaceSignalsFollowTop := by
  refine fun s hst => ⟨fun h => ?_, fun h => ?_, fun h => ?_, fun h => ?_⟩
  · have hacc := accepts_of_active (s.active_iff.mpr h)
    rcases h with h | h <;> simp [State.doneSignal, State.failedSignal, State.errCodeSignal, h, hacc]
  · have hnone : s.errCode = .noError := by
      by_contra hne
      exact absurd (h.symm.trans (hst.failed.mpr hne)) (by decide)
    simp [State.doneSignal, State.failedSignal, State.errCodeSignal, h, hnone, accepts_quiescent (.inl h),
      ErrCode.number]
  · have hsig : s.errCodeSignal = some s.errCode.number := by simp only [State.errCodeSignal, h]
    have hne := ErrCode.number_ne_zero (hst.failed.mp h)
    refine ⟨by rw [State.doneSignal, h]; rfl, by rw [State.failedSignal, h]; rfl, accepts_quiescent (.inr (.inl h)),
      hsig.trans ?_, by rw [hsig]; simpa using hne⟩
    cases s.errCode <;> rfl
  · simp [State.doneSignal, State.failedSignal, State.errCodeSignal, h, accepts_quiescent (.inr (.inr h))]

end Sys2Proof.Machine

/-! Proofs about the invariants of 10_state.md R43 (`State.Sound`): each component is kept by a dispatch step and then by
every step; a sound state never faults; the step bound (70_reset_and_hazards.md R220) and the host's reads follow. -/

namespace Sys2Proof.Machine

open Sys2Proof.Claims

/-! ### Widths (00_scope.md R8) -/

/-- No setting exceeds its width (10_state.md R26 to R32). -/
structure Settings.WithinWidths (c : Settings) : Prop where
  bank : OrUnset.Holds c.bank (· < 2 ^ 120)
  width : OrUnset.Holds c.width (fun w => 1 ≤ w ∧ w ≤ 2 ^ 120)
  height : OrUnset.Holds c.height (· < 2 ^ 120)
  offset : OrUnset.Holds c.offset (· < 2 ^ 120)
  freq : ∀ v, c.freq = .unknown v → 3 ≤ v ∧ v < 2 ^ 120

theorem State.WithinWidths.settings {s : State} (h : s.WithinWidths) : s.settings.WithinWidths :=
  ⟨h.bank, h.width, h.height, h.offset, h.freq⟩

theorem holds_some {α : Type} {P : α → Prop} {v : α} (h : P v) : OrUnset.Holds (some v) P := by
  intro u hu
  cases hu
  exact h

theorem freqOf_withinWidths {p : Nat} (hp : p < 2 ^ 120) : ∀ v, freqOf p = .unknown v → 3 ≤ v ∧ v < 2 ^ 120 := by
  intro v hv
  match p with
  | 0 | 1 | 2 => cases hv
  | n + 3 => cases hv; exact ⟨Nat.le_add_left 3 n, hp⟩

theorem SettingsAfter.withinWidths {s : State} {op : Nibble} {p : Nat} {c : Settings} (h : SettingsAfter s op p c)
    (hs : s.settings.WithinWidths) (hp : p < 2 ^ 120) : c.WithinWidths := by
  cases h with
  | bank => exact { hs with bank := holds_some hp }
  | freq => exact { hs with freq := freqOf_withinWidths hp }
  | setw => exact { hs with width := holds_some ⟨Nat.le_add_left 1 p, hp⟩ }
  | seth => exact { hs with height := holds_some hp }
  | setoff => exact { hs with offset := holds_some hp }
  | _ => exact { hs with }

theorem State.WithinWidths.endFraming {s : State} (h : s.WithinWidths) (op len : Nibble) {p : Nat} (hp : p < 2 ^ 120) :
    (s.endFraming op len p).WithinWidths :=
  { h with
    payload := hp
    payRemain := by
      rw [State.endFraming_payRemain]
      have := h.payRemain
      split <;> omega }

theorem State.WithinWidths.raise {s : State} (h : s.WithinWidths) (e : ErrCode) (c : OrUnset Nat) (op : OrUnset Nibble)
    {p : OrUnset Nat} (n : Nat) (hp : OrUnset.Holds p (· < 2 ^ 120)) : (s.raise e c op p n).WithinWidths :=
  { h with errPayload := hp }

theorem State.WithinWidths.endOfStream {s : State} (h : s.WithinWidths) : s.endOfStream.WithinWidths := by
  obtain ⟨c, op, p, he, hp⟩ := s.endOfStream_raise
  rw [he]
  refine h.raise _ c op 0 ?_
  rcases hp with rfl | rfl
  · exact nofun
  · exact holds_some h.payload

theorem State.extW_growExtent (s : State) (st st' : StoreId) (w h : Nat) :
    (s.growExtent st w h).extW st' = if st = st' then maxUnset (s.extW st') w else s.extW st' := by
  cases st <;> cases st' <;> rfl

theorem State.extH_growExtent (s : State) (st st' : StoreId) (w h : Nat) :
    (s.growExtent st w h).extH st' = if st = st' then maxUnset (s.extH st') h else s.extH st' := by
  cases st <;> cases st' <;> rfl

theorem State.extW_openBlock (s : State) (st st' : StoreId) (bank w h off : Nat) :
    (s.openBlock st bank w h off).extW st' = (s.growExtent st w (off + h)).extW st' := by cases st' <;> rfl

theorem State.extH_openBlock (s : State) (st st' : StoreId) (bank w h off : Nat) :
    (s.openBlock st bank w h off).extH st' = (s.growExtent st w (off + h)).extH st' := by cases st' <;> rfl

/-- The latched geometry is the settings', and the extent it raises stays below 2^121 - 1 (10_state.md R33). -/
theorem State.WithinWidths.openBlock {s : State} (hs : s.WithinWidths) (st : StoreId) {bank w h off : Nat}
    (hb : s.bank = some bank) (hw : s.width = some w) (hh : s.height = some h) (ho : s.offset = some off) :
    (s.openBlock st bank w h off).WithinWidths := by
  have hheight := hs.height h hh
  have hoffset := hs.offset off ho
  refine ⟨by simpa using hs.bank, by simpa using hs.width, by simpa using hs.height, by simpa using hs.offset,
    by simpa using hs.freq, by simpa using hs.payRemain, by simpa using hs.payload, fun st' => ?_, fun st' => ?_,
    hs.bank bank hb, (hs.width w hw).2, hheight, hoffset, by simpa using hs.errPayload⟩
  · rw [State.extW_openBlock, State.extW_growExtent]
    split
    · exact OrUnset.holds_max (hs.extW st') (hs.width w hw)
    · exact hs.extW st'
  · rw [State.extH_openBlock, State.extH_growExtent]
    split
    · exact OrUnset.holds_max (hs.extH st') (by omega)
    · exact hs.extH st'

theorem CommandTo.withinWidths {s t : State} {op len : Nibble} {p : Nat} (hc : CommandTo s op len p t)
    (hs : s.WithinWidths) (hp : p < 2 ^ 120) : t.WithinWidths := by
  have hf := hs.endFraming op len hp
  cases hc with
  | settings c h =>
    obtain ⟨hbank, hwidth, hheight, hoffset, hfreq⟩ := h.withinWidths hs.settings hp
    exact { hf with bank := hbank, width := hwidth, height := hheight, offset := hoffset, freq := hfreq }
  | wakeup h => exact { hf with }
  | error e h => exact hs.raise _ _ _ _ (holds_some hp)
  | block st bank w h off hop hpay hb hw hh ho hm => exact hf.openBlock st hb hw hh ho
  | unset => exact { hs with }

/-- The payload of a dispatched command fits the length it was announced with. -/
theorem State.FramingInRange.shiftIn_lt {s : State} (h : s.FramingInRange) (hrun : s.top = .run)
    (hp : s.phase = .payload) (b : Byte) : shiftIn s.payload b < 256 ^ (s.cmdLen.toNat - s.payRemain + 1) := by
  have hlt := h.partialPayload hrun hp
  have := b.isLt
  rw [pow_succ, shiftIn]
  omega

/-- A payload still being read is below 2^120 with one byte more. -/
theorem State.FramingInRange.shiftIn_lt_two_pow {s : State} (h : s.FramingInRange) (hrun : s.top = .run)
    (hp : s.phase = .payload) (b : Byte) : shiftIn s.payload b < 2 ^ 120 := by
  have hrem := h.remaining hrun hp
  have hle : s.cmdLen.toNat - s.payRemain + 1 ≤ s.cmdLen.toNat := by omega
  have hfits : fitsIn s.cmdLen (shiftIn s.payload b) = true :=
    decide_eq_true ((h.shiftIn_lt hrun hp b).trans_le (Nat.pow_le_pow_right (by decide) hle))
  exact fitsIn_lt hfits

theorem StepTo.withinWidths {s t : State} (hs : StepTo s t) (hw : s.WithinWidths) (hf : s.FramingInRange) :
    t.WithinWidths := by
  cases hs with
  | quiet h => exact hw
  | eos h hb => exact hw.endOfStream
  | openCommand b h hp hb hl =>
    exact { hw with payload := Nat.two_pow_pos 120, payRemain := Nat.le_of_lt_succ (lenField b).isLt }
  | dispatchCmd b _ h hp hb hl hc => exact hc.withinWidths hw (Nat.two_pow_pos 120)
  | shiftPayload b h hp hb hr =>
    exact { hw with
      payload := hf.shiftIn_lt_two_pow h hp b, payRemain := (Nat.sub_le _ _).trans hw.payRemain }
  | dispatchPayload b _ h hp hb hr hc => exact hc.withinWidths hw (hf.shiftIn_lt_two_pow h hp b)
  | data b u h hp hb hd hpos hu =>
    obtain ⟨c, d, rfl⟩ := State.memWriteAll_eq hu
    exact { hw with }
  | trailer b h hp hb => rw [trailerStep_frame]; exact { hw with }
  | _ => exact { hw with }

/-! ### The framing (41_framing.md R102) -/

/-- PAY_REMAIN and PAYLOAD are in range. -/
def PayloadInRange (s : State) : Prop :=
  (1 ≤ s.payRemain ∧ s.payRemain ≤ s.cmdLen.toNat) ∧ s.payload < 256 ^ (s.cmdLen.toNat - s.payRemain)

theorem State.framingInRange_iff (s : State) :
    s.FramingInRange ↔ (s.top = .run → s.phase = .payload → PayloadInRange s) :=
  ⟨fun h hrun hp => ⟨h.remaining hrun hp, h.partialPayload hrun hp⟩,
    fun h => ⟨fun hrun hp => (h hrun hp).1, fun hrun hp => (h hrun hp).2⟩⟩

theorem StepTo.framingInRange {s t : State} (hs : StepTo s t) (h : s.FramingInRange) : t.FramingInRange := by
  rw [State.framingInRange_iff]
  intro ht hp
  obtain ⟨b, hb, hrun, ⟨hl, rfl⟩ | ⟨hpay, hr, rfl⟩⟩ := hs.payload_cases ht hp
  · have hpos : (lenField b).toNat ≠ 0 := fun e => hl ((nibble_eq_zero _).mpr e)
    exact ⟨⟨Nat.pos_of_ne_zero hpos, Nat.le_refl _⟩, Nat.pow_pos (by decide)⟩
  · have hrem := h.remaining hrun hpay
    have hexp : s.cmdLen.toNat - (s.payRemain - 1) = s.cmdLen.toNat - s.payRemain + 1 := by omega
    refine ⟨⟨?_, ?_⟩, ?_⟩
    · rw [State.shiftPayload_payRemain]; omega
    · rw [State.shiftPayload_payRemain, State.shiftPayload_cmdLen]; omega
    · rw [State.shiftPayload_payRemain, State.shiftPayload_cmdLen, State.shiftPayload_payload, hexp]
      exact h.shiftIn_lt hrun hpay b

/-! ### The block registers (43_subcommands.md R150, R152) -/

/-- The block registers whose relations hold in every phase. -/
def State.blockCounters (s : State) : Nat × Nat × Nat × Nat × Nat := (s.blkBytes, s.blkW, s.blkH, s.blkDone, s.trlDone)

/-- Outside a block only the relations that hold in every phase are left, and they are kept with their registers. -/
theorem State.BlockInRange.of_idle {s t : State} (h : s.BlockInRange) (hregs : t.blockCounters = s.blockCounters)
    (hidle : t.top = .run → t.phase ≠ .data ∧ t.phase ≠ .trailer) : t.BlockInRange := by
  simp only [State.blockCounters, Prod.mk.injEq] at hregs
  obtain ⟨hbytes, hw, hh, hdone, htrl⟩ := hregs
  have hno : t.top = .run → ¬ (t.phase = .data ∨ t.phase = .trailer) := fun hrun hp =>
    hp.elim (hidle hrun).1 (hidle hrun).2
  exact {
    bytes := by rw [hbytes, hw, hh]; exact h.bytes
    done := by rw [hdone, hbytes]; exact h.done
    trailer := by rw [htrl]; exact h.trailer
    dataLeft := fun hrun hp => absurd (.inl hp) (hno hrun)
    trailerFresh := fun hrun hp => absurd (.inl hp) (hno hrun)
    allRead := fun hrun hp => absurd (.inr hp) (hno hrun)
    latched := fun hrun hp => absurd hp (hno hrun)
    inExtent := fun hrun hp => absurd (.inl hp) (hno hrun)
    selector := fun hrun hp => absurd hp (hno hrun) }

/-- BlockStart sets the block registers so that they agree (43_subcommands.md R150). -/
theorem State.openBlock_blockInRange {s : State} {st : StoreId} {bank w h off : Nat} (hop : s.cmdOp = 0)
    (hp : s.payload = st.selector) (hb : s.bank = some bank) (hw : s.width = some w) (hh : s.height = some h)
    (ho : s.offset = some off) (hm : w * h % 8 = 0) : (s.openBlock st bank w h off).BlockInRange where
  bytes := by simp only [State.openBlock_blkBytes, State.openBlock_blkW, State.openBlock_blkH]; omega
  done := Nat.zero_le _
  trailer := Nat.zero_le _
  dataLeft _ hdata := by
    rw [State.openBlock_phase] at hdata
    split at hdata
    · cases hdata
    · simp only [State.openBlock_blkBytes, State.openBlock_blkDone]; omega
  trailerFresh _ _ := ⟨rfl, rfl⟩
  allRead _ htrl := by
    rw [State.openBlock_phase] at htrl
    split at htrl
    · next hz => simp [hz]
    · cases htrl
  latched _ _ := by simp [hb, hw, hh, ho]
  inExtent _ _ := by
    rw [State.extW_openBlock, State.extH_openBlock, State.extW_growExtent, State.extH_growExtent,
      State.openBlock_blkStore, if_pos rfl, if_pos rfl]
    exact ⟨unsetLe_max_right _ _, unsetLe_max_right _ _⟩
  selector _ _ := by simp [hop, hp]

/-- CMD_OP holds the opcode of the command whose dispatch step this is. -/
theorem State.endFraming_cmdOp_eq {s : State} {op : Nibble} (h : s.phase = .cmd ∨ s.cmdOp = op) (len : Nibble) (p : Nat) :
    (s.endFraming op len p).cmdOp = op := by
  rw [State.endFraming_cmdOp]
  split
  · rfl
  · next hne => exact h.resolve_left hne

theorem CommandTo.blockInRange {s t : State} {op len : Nibble} {p : Nat} (hc : CommandTo s op len p t)
    (hop : s.phase = .cmd ∨ s.cmdOp = op) (h : s.BlockInRange) : t.BlockInRange := by
  cases hc with
  | settings => exact h.of_idle rfl fun _ => ⟨nofun, nofun⟩
  | block st bank w h off hz hp hb hw hh ho hm =>
    exact State.openBlock_blockInRange ((State.endFraming_cmdOp_eq hop len p).trans hz) hp hb hw hh ho hm
  | _ => exact h.of_idle rfl fun ht => by cases ht

/-- A data byte that lands: one byte fewer is left, or the trailer begins (43_subcommands.md R152). -/
theorem State.BlockInRange.data {s : State} (h : s.BlockInRange) (hrun : s.top = .run) (hp : s.phase = .data)
    (c b : Memory) : State.BlockInRange { s with
      cramStore := c, bramStore := b, streamOffset := s.streamOffset + 1, blkDone := s.blkDone + 1,
      phase := if s.blkDone + 1 = s.blkBytes then .trailer else s.phase } where
  bytes := h.bytes
  done := h.dataLeft hrun hp
  trailer := h.trailer
  dataLeft _ hdata := by
    dsimp only at hdata ⊢
    have := h.dataLeft hrun hp
    split at hdata
    · cases hdata
    · omega
  trailerFresh _ _ := h.trailerFresh hrun hp
  allRead _ htrl := by
    dsimp only at htrl ⊢
    have htrl0 := (h.trailerFresh hrun hp).1
    split at htrl
    · next heq => exact ⟨heq, by omega⟩
    · rw [hp] at htrl; cases htrl
  latched _ _ := h.latched hrun (.inl hp)
  inExtent _ _ := h.inExtent hrun hp
  selector _ _ := h.selector hrun (.inl hp)

/-- A trailer byte: the first keeps the block's registers, the second ends the block (43_subcommands.md R153). -/
theorem State.BlockInRange.trailerStep {s : State} (h : s.BlockInRange) (hrun : s.top = .run) (hp : s.phase = .trailer)
    (b : Byte) : (trailerStep b s).BlockInRange := by
  unfold Machine.trailerStep
  split
  · exact { h with
      trailer := Nat.le_succ 1
      dataLeft := fun _ hdata => by rw [hp] at hdata; cases hdata
      trailerFresh := fun _ hdata => by rw [hp] at hdata; cases hdata
      allRead := fun _ _ => ⟨(h.allRead hrun hp).1, Nat.le_refl 1⟩ }
  · exact { h with
      trailer := Nat.le_refl 2
      dataLeft := fun _ hdata => by cases hdata
      trailerFresh := fun _ hdata => by cases hdata
      allRead := fun _ htrl => by cases htrl
      latched := fun _ hblk => by rcases hblk with hblk | hblk <;> cases hblk
      inExtent := fun _ hdata => by cases hdata
      selector := fun _ hblk => by rcases hblk with hblk | hblk <;> cases hblk }

theorem StepTo.blockInRange {s t : State} (hs : StepTo s t) (h : s.BlockInRange) : t.BlockInRange := by
  cases hs with
  | quiet => exact h
  | eos =>
    obtain ⟨c, op, p, he, -⟩ := s.endOfStream_raise
    rw [he]
    exact h.of_idle rfl fun ht => by cases ht
  | syncByte b hsync => exact h.of_idle rfl fun ht => by simp [hsync] at ht
  | preamble => exact h.of_idle rfl fun _ => ⟨nofun, nofun⟩
  | openCommand => exact h.of_idle rfl fun _ => ⟨nofun, nofun⟩
  | dispatchCmd b _ hrun hp hb hl hc => exact hc.blockInRange (.inl hp) h
  | shiftPayload b hrun hp => exact h.of_idle rfl fun _ => by simp [hp]
  | dispatchPayload b _ hrun hp hb hr hc => exact hc.blockInRange (.inr rfl) h
  | data b u hrun hp hb hd hw hu =>
    obtain ⟨c, d, rfl⟩ := State.memWriteAll_eq hu
    exact h.data hrun hp c d
  | dataLimit => exact h.of_idle rfl fun ht => by cases ht
  | trailer b hrun hp => exact h.trailerStep hrun hp b

/-! ### The written cells (10_state.md R43(e), 00_scope.md R9) -/

/-- The cells of a data byte lie inside the block, and the block inside the extent (43_subcommands.md R150, R152). -/
theorem State.BlockInRange.dataCell_inExtent {s : State} (h : s.BlockInRange) (hrun : s.top = .run)
    (hp : s.phase = .data) {n : Nat} (hn : n < 8) :
    unsetLe (some ((s.dataCell n).x + 1)) (s.extW s.blkStore) ∧
      unsetLe (some ((s.dataCell n).y + 1)) (s.extH s.blkStore) := by
  obtain ⟨hw, hh⟩ := h.inExtent hrun hp
  have hleft := h.dataLeft hrun hp
  have hlt : 8 * s.blkDone + n < s.blkW * s.blkH := by rw [← h.bytes]; omega
  have hx : (8 * s.blkDone + n) % s.blkW < s.blkW :=
    Nat.mod_lt _ (Nat.pos_of_ne_zero fun hz => by simp [hz] at hlt)
  have hy : (8 * s.blkDone + n) / s.blkW < s.blkH := Nat.div_lt_of_lt_mul hlt
  refine ⟨unsetLe_trans (y := some s.blkW) hx hw, unsetLe_trans (y := some (s.blkOff + s.blkH)) ?_ hh⟩
  change (8 * s.blkDone + n) / s.blkW + s.blkOff + 1 ≤ s.blkOff + s.blkH
  omega

/-- A cell that holds a bit after a step held one before, or is one of a data byte's cells. -/
theorem StepTo.cellsInExtent {s t : State} (hs : StepTo s t) (hblk : s.BlockInRange) (h : ∀ st, s.CellsInExtent st)
    (st : StoreId) : t.CellsInExtent st := by
  intro a bit ha
  obtain ⟨hw, hh⟩ := hs.extents st
  suffices hin : unsetLe (some (a.x + 1)) (s.extW st) ∧ unsetLe (some (a.y + 1)) (s.extH st) from
    ⟨unsetLe_trans hin.1 hw, unsetLe_trans hin.2 hh⟩
  rw [State.memRead] at ha
  rcases hs.stores with hst | ⟨b, u, hd⟩
  · exact h st a bit (by rw [State.memRead, ← hst st, ha])
  · by_cases hcell : st = s.blkStore ∧ a ∈ (s.dataWrites b).map Prod.fst
    · obtain ⟨rfl, hmem⟩ := hcell
      obtain ⟨n, hn, rfl⟩ := State.mem_dataCells.mp hmem
      exact hblk.dataCell_inExtent hd.run hd.data hn
    · have hread := (State.memWriteAll_read hd.written (s.dataWrites_nodup b)).2 st a
        fun hst hmem => hcell ⟨hst.symm, hmem⟩
      exact h st a bit (by rw [← hread, State.memRead, ← hd.store st, ha])

theorem State.cellCount_eq_of_store {s t : State} (h : ∀ st, t.store st = s.store st) : t.cellCount = s.cellCount := by
  have hc : t.cramStore = s.cramStore := h .cram
  have hb : t.bramStore = s.bramStore := h .bram
  rw [State.cellCount, State.cellCount, hc, hb]

theorem StepTo.withinLimit {s t : State} (hs : StepTo s t) (hcan : s.StoresCanonical) (h : s.WithinLimit) :
    t.WithinLimit := by
  intro n hn
  rw [hs.input.2] at hn
  rcases hs.stores with hst | ⟨b, u, hd⟩
  · rw [State.cellCount_eq_of_store hst]
    exact h n hn
  · rw [State.cellCount_eq_of_store hd.store]
    refine State.memWriteAll_withinLimit hd.written hcan h n ?_
    obtain ⟨c, d, rfl⟩ := State.memWriteAll_eq hd.written
    exact hn

/-! ### The status (10_state.md R40, R41) -/

/-- Where the records stay and TOP neither enters nor leaves FAILED and MODEL_FAULT, they agree as before. -/
theorem State.StatusAgrees.of_same {s t : State} (h : s.StatusAgrees) (hrec : t.errorRecord = s.errorRecord)
    (hfault : t.faultReason = s.faultReason) (hs : s.active = true) (ht : t.top ≠ .failed ∧ t.top ≠ .modelFault) :
    t.StatusAgrees := by
  simp only [State.errorRecord, ErrorRecord.mk.injEq] at hrec
  obtain ⟨hcode, hoff, hcmd, hop, hpay, hphase⟩ := hrec
  have hsf : s.top ≠ .failed ∧ s.top ≠ .modelFault := by
    rcases s.active_iff.mp hs with h | h <;> simp [h]
  refine ⟨?_, ?_, ?_⟩
  · rw [hcode, ← h.failed]; exact iff_of_false ht.1 hsf.1
  · rw [hfault, ← h.fault]; exact iff_of_false ht.2 hsf.2
  · rw [hcode, hoff, hcmd, hop, hpay, hphase]; exact h.noRecord

theorem State.StatusAgrees.raise {s : State} (h : s.StatusAgrees) (hs : s.active = true) {e : ErrCode}
    (he : e ≠ .noError) (c : OrUnset Nat) (op : OrUnset Nibble) (p : OrUnset Nat) (n : Nat) :
    (s.raise e c op p n).StatusAgrees := by
  have hsf : s.top ≠ .modelFault := by
    rcases s.active_iff.mp hs with h | h <;> simp [h]
  exact ⟨iff_of_true rfl he, iff_of_false nofun fun hr => hsf (h.fault.mpr hr), fun hno => absurd hno he⟩

theorem State.StatusAgrees.modelFault {s : State} (h : s.StatusAgrees) (hs : s.active = true) {r : FaultReason}
    (hr : r ≠ .noFault) : (s.modelFault r).StatusAgrees := by
  have hsf : s.top ≠ .failed := by
    rcases s.active_iff.mp hs with h | h <;> simp [h]
  exact ⟨iff_of_false nofun fun he => hsf (h.failed.mpr he), iff_of_true rfl hr, h.noRecord⟩

theorem CommandTo.statusAgrees {s t : State} {op len : Nibble} {p : Nat} (hc : CommandTo s op len p t)
    (hrun : s.top = .run) (h : s.StatusAgrees) : t.StatusAgrees := by
  have hact := s.active_iff.mpr (.inr hrun)
  cases hc with
  | settings => exact h.of_same rfl rfl hact (by simp [hrun])
  | wakeup => exact h.of_same rfl rfl hact ⟨nofun, nofun⟩
  | error e he => exact h.raise hact he _ _ _ _
  | block st => exact h.of_same (by cases st <;> rfl) (by simp) hact (by simp [hrun])
  | unset => exact h.modelFault hact (by decide)

theorem StepTo.statusAgrees {s t : State} (hs : StepTo s t) (h : s.StatusAgrees) : t.StatusAgrees := by
  cases hs with
  | quiet => exact h
  | eos hact hb =>
    obtain ⟨c, op, p, he, -⟩ := s.endOfStream_raise
    rw [he]
    exact h.raise hact (by decide) c op p 0
  | syncByte b hsync => exact h.of_same rfl rfl (s.active_iff.mpr (.inl hsync)) (by simp [hsync])
  | preamble b hsync => exact h.of_same rfl rfl (s.active_iff.mpr (.inl hsync)) ⟨nofun, nofun⟩
  | openCommand b hrun => exact h.of_same rfl rfl (s.active_iff.mpr (.inr hrun)) (by simp [hrun])
  | dispatchCmd b _ hrun hp hb hl hc => exact hc.statusAgrees hrun h
  | shiftPayload b hrun => exact h.of_same rfl rfl (s.active_iff.mpr (.inr hrun)) (by simp [hrun])
  | dispatchPayload b _ hrun hp hb hr hc => exact hc.statusAgrees hrun h
  | data b u hrun hp hb hd hw hu =>
    obtain ⟨c, d, rfl⟩ := State.memWriteAll_eq hu
    exact h.of_same rfl rfl (s.active_iff.mpr (.inr hrun)) (by simp [hrun])
  | dataLimit b hrun => exact h.modelFault (s.active_iff.mpr (.inr hrun)) (by decide)
  | trailer b hrun =>
    rw [trailerStep_frame]
    exact h.of_same rfl rfl (s.active_iff.mpr (.inr hrun)) (by simp [hrun])

/-! ### The synchronizer's registers (40_synchronizer.md R95) -/

/-- Outside SYNC the window and SYNC_BYTES stay as the match left them. -/
theorem State.SyncFresh.of_frame {s t : State} (h : s.SyncFresh) (hw : t.window = s.window)
    (hb : t.syncBytes = s.syncBytes) (ht : t.top ≠ .sync) (hrun : t.top = .run → s.top = .run) : t.SyncFresh where
  fresh hsync := absurd hsync ht
  matched := by rw [hw, hb]; exact h.matched
  running htop := by rw [hb]; exact h.running (hrun htop)

/-- A byte without a match writes WINDOW and the position alone. -/
theorem State.SyncFresh.shiftSync {s : State} {b : Byte} (h : s.SyncFresh) (hsync : s.top = .sync)
    (hw : shiftWindow s.window b ≠ Config.magic) : (s.shiftSync b).SyncFresh where
  fresh _ := by
    rw [State.shiftSync, h.fresh hsync]
  matched := by
    have hnone : s.syncBytes = none := by rw [h.fresh hsync]; rfl
    exact iff_of_false hw (not_not.mpr hnone)
  running hrun := by rw [State.shiftSync_top, hsync] at hrun; cases hrun

theorem StepTo.syncFresh {s t : State} (hs : StepTo s t) (h : s.SyncFresh) : t.SyncFresh := by
  have hframe := hs.sync_frame
  cases hs with
  | quiet => exact h
  | eos => exact h.of_frame (by simp) (by simp) (by simp) (by simp)
  | syncByte b hsync hb hw => exact h.shiftSync hsync hw
  | preamble => exact ⟨nofun, iff_of_true rfl nofun, fun _ => nofun⟩
  | _ =>
    have hrun : s.top = .run := by assumption
    obtain ⟨ht, hw, hb⟩ := hframe (by simp [hrun])
    exact h.of_frame hw hb ht fun _ => hrun

/-! ### Sound states (10_state.md R43) -/

theorem StepTo.sound {s t : State} (hs : StepTo s t) (h : s.Sound) : t.Sound where
  stores := hs.storesCanonical h.stores
  widths := hs.withinWidths h.widths h.framing
  framing := hs.framingInRange h.framing
  block := hs.blockInRange h.block
  cells := hs.cellsInExtent h.block h.cells
  limit := hs.withinLimit h.stores h.limit
  status := hs.statusAgrees h.status
  sync := hs.syncFresh h.sync

/-- Settles O41: a sound state is in the operand ranges of every step, and each component of soundness is kept. -/
theorem soundStatesStepToSoundStates : Obligations.SoundStatesStepToSoundStates := by
  intro s h
  obtain ⟨t, hstep, hs⟩ := step_total s
    (fun hrun hp => Nat.one_le_iff_ne_zero.mp (h.framing.remaining hrun hp).1)
    (fun hrun hp => by
      have hleft := h.block.dataLeft hrun hp
      have hbytes := h.block.bytes
      refine ⟨hleft, Nat.pos_of_ne_zero fun hz => ?_⟩
      rw [hz, Nat.zero_mul] at hbytes
      omega)
  exact ⟨t, hstep, hs.sound h⟩

/-! ### The step bound (70_reset_and_hazards.md R220) -/

/-- From a sound state that is not quiescent a step ends the run or consumes one of the bytes left. -/
theorem State.Sound.progress {s : State} (h : s.Sound) (hq : ¬ Quiescent s) :
    ∃ t, step s = .next t ∧ t.Sound ∧
      (Quiescent t ∨ (t.input = s.input ∧ t.streamOffset = s.streamOffset + 1 ∧ s.streamOffset < s.input.length)) := by
  have hact : s.active = true := by rwa [quiescent_iff, Bool.not_eq_false] at hq
  obtain ⟨t, hstep, ht⟩ := soundStatesStepToSoundStates s h
  refine ⟨t, hstep, ht, ?_⟩
  cases hb : s.nextByte with
  | none =>
    rw [step_eos hact hb, Host.Outcome.next.injEq] at hstep
    exact .inl (.inr (.inl (hstep ▸ s.endOfStream_top)))
  | some b =>
    have hoff := everyConsumedByteIsCountedOnce s t hstep
    rw [if_pos ⟨s.active_iff.mp hact, by simp [hb]⟩] at hoff
    exact .inr ⟨(noStepWritesInput s t hstep).1, hoff, State.streamOffset_lt hb⟩

/-- By induction on the number of steps: each ends the run or leaves one byte fewer. -/
theorem State.Sound.runSteps_quiescent {s : State} (h : s.Sound) {n : Nat}
    (hn : s.input.length - s.streamOffset + 1 ≤ n) : ∃ t, s.runSteps n = .next t ∧ Quiescent t := by
  induction n generalizing s with
  | zero => omega
  | succ n ih =>
    by_cases hq : Quiescent s
    · exact ⟨s, Machine.runSteps_quiescent hq _, hq⟩
    · obtain ⟨t, hstep, hsound, ht | ⟨hin, hoff, hlt⟩⟩ := h.progress hq
      · exact ⟨t, by rw [State.runSteps_succ _ hstep, Machine.runSteps_quiescent ht], ht⟩
      · rw [State.runSteps_succ _ hstep]
        exact ih hsound (by rw [hin]; omega)

/-- Settles O48: the bound on a sound state's run, at the number of bytes left. -/
theorem everyRunEndsWithinTheBound : Obligations.EveryRunEndsWithinTheBound := fun _ h =>
  h.runSteps_quiescent (Nat.le_refl _)

/-! ### The host's reads (20_memory.md R54) -/

/-- Settles O51: a cell that read a bit outside the extent would break soundness. -/
theorem cellsOutsideTheExtentReadUnset : Obligations.CellsOutsideTheExtentReadUnset := by
  refine fun s st a h => ⟨fun ht => if_neg ht, fun ht => if_pos ht, fun ht hout => ?_⟩
  rw [State.hostRead, if_pos ht]
  cases hread : s.memRead st a with
  | none => rfl
  | some bit =>
    obtain ⟨hw, hh⟩ := h.cells st a bit hread
    exact hout.elim (absurd hw) (absurd hh)

/-! ### Reset (10_state.md R46) -/

theorem restart_withinWidths (s : State) (stream : List Byte) : (s.restart stream).WithinWidths where
  bank := nofun
  width := nofun
  height := nofun
  offset := nofun
  freq := nofun
  payRemain := Nat.zero_le _
  payload := Nat.two_pow_pos 120
  extW st := by cases st <;> exact nofun
  extH st := by cases st <;> exact nofun
  blkBank := Nat.two_pow_pos 120
  blkW := Nat.zero_le _
  blkH := Nat.two_pow_pos 120
  blkOff := Nat.two_pow_pos 120
  errPayload := nofun

theorem restart_blockInRange (s : State) (stream : List Byte) : (s.restart stream).BlockInRange where
  bytes := rfl
  done := Nat.le_refl _
  trailer := Nat.zero_le _
  dataLeft := nofun
  trailerFresh := nofun
  allRead := nofun
  latched := nofun
  inExtent := nofun
  selector := nofun

theorem restart_sound (s : State) (stream : List Byte) : (s.restart stream).Sound where
  stores := State.reset_storesCanonical
  widths := restart_withinWidths s stream
  framing := ⟨nofun, nofun⟩
  block := restart_blockInRange s stream
  cells st a bit h := by cases st <;> cases h
  limit n _ := Nat.zero_le n
  status := ⟨iff_of_false nofun nofun, iff_of_false nofun nofun, fun _ => ⟨rfl, rfl, rfl, rfl, rfl⟩⟩
  sync := ⟨fun _ => rfl, iff_of_false (show 0x00000000#32 ≠ Config.magic by decide) nofun, nofun⟩

theorem restart_tracksInput (s : State) (stream : List Byte) : (s.restart stream).TracksInput where
  position := Nat.zero_le _
  window _ := by simp [State.consumed, State.restart, State.reset, lastFourValue, beValue, shiftInAll, shiftIn]
  command := nofun

/-- Settles O43: reset is a restart with the empty stream and no STORE_LIMIT. -/
theorem resetMeetsEveryInvariant : Obligations.ResetMeetsEveryInvariant :=
  ⟨restart_sound State.reset [], restart_tracksInput State.reset [],
    fun s stream => ⟨restart_sound s stream, restart_tracksInput s stream⟩⟩

end Sys2Proof.Machine

/-! Proofs about noninterference: a relation of states that every operation of a step keeps is kept by every step and run;
the stores (20_memory.md R53) and the output registers (10_state.md R25, R30 to R32, R35, R39) give two such relations. -/

namespace Sys2Proof.Machine

open Sys2Proof.Claims

/-! ### Relations that a step keeps -/

/-- The two states hold the same in every register that selects the next step. -/
structure SameControl (s t : State) : Prop where
  top : t.top = s.top
  phase : t.phase = s.phase
  nextByte : t.nextByte = s.nextByte
  window : t.window = s.window
  cmdOffset : t.cmdOffset = s.cmdOffset
  cmdOp : t.cmdOp = s.cmdOp
  cmdLen : t.cmdLen = s.cmdLen
  payRemain : t.payRemain = s.payRemain
  payload : t.payload = s.payload

/-- `R` relates states that take the same next step, and every operation of a step keeps it. -/
structure StepCongruence (R : State → State → Prop) : Prop where
  control {s t : State} : R s t → SameControl s t
  exec (i : Instr) {s t : State} : R s t → Related R (exec i s) (exec i t)
  raise (e : ErrCode) (c : OrUnset Nat) (op : OrUnset Nibble) (p : OrUnset Nat) (n : Nat) {s t : State} :
    R s t → R (s.raise e c op p n) (t.raise e c op p n)
  shiftSync (b : Byte) {s t : State} : R s t → R (s.shiftSync b) (t.shiftSync b)
  openCommand (b : Byte) {s t : State} : R s t → R (s.openCommand b) (t.openCommand b)
  shiftPayload (b : Byte) {s t : State} : R s t → R (s.shiftPayload b) (t.shiftPayload b)
  dataStep (b : Byte) {s t : State} : R s t → Related R (dataStep b s) (dataStep b t)
  trailerStep (b : Byte) {s t : State} : R s t → R (trailerStep b s) (trailerStep b t)

/-- Two next steps dispatch the same instruction, or have related outcomes. -/
def FetchRelated (R : State → State → Prop) (x y : Fetched) : Prop :=
  match x, y with
  | .instr i, .instr j => i = j
  | .other o, .other o' => Related R o o'
  | _, _ => False

section
variable {R : State → State → Prop} {s t : State}

theorem StepCongruence.endOfStream (hR : StepCongruence R) (h : R s t) : R s.endOfStream t.endOfStream := by
  have hc := hR.control h
  simp only [State.endOfStream, hc.top, hc.phase, hc.cmdOffset, hc.cmdOp, hc.payload]
  split <;> exact hR.raise _ _ _ _ _ h

theorem StepCongruence.fetchSync (hR : StepCongruence R) (h : R s t) (b : Byte) :
    FetchRelated R (fetchSync b s) (fetchSync b t) := by
  simp only [Machine.fetchSync, (hR.control h).window]
  split
  · exact rfl
  · exact hR.shiftSync b h

theorem StepCongruence.fetchCmd (hR : StepCongruence R) (h : R s t) (b : Byte) :
    FetchRelated R (fetchCmd b s) (fetchCmd b t) := by
  simp only [Machine.fetchCmd]
  split
  · exact rfl
  · exact hR.openCommand b h

theorem StepCongruence.fetchPayload (hR : StepCongruence R) (h : R s t) (b : Byte) :
    FetchRelated R (fetchPayload b s) (fetchPayload b t) := by
  have hc := hR.control h
  simp only [Machine.fetchPayload, hc.payRemain, hc.cmdOp, hc.cmdLen, hc.payload]
  split
  · exact rfl
  · split
    · exact rfl
    · exact hR.shiftPayload b h

theorem StepCongruence.fetchRun (hR : StepCongruence R) (h : R s t) (b : Byte) :
    FetchRelated R (fetchRun b s) (fetchRun b t) := by
  simp only [Machine.fetchRun, (hR.control h).phase]
  cases s.phase with
  | cmd => exact hR.fetchCmd h b
  | payload => exact hR.fetchPayload h b
  | data => exact hR.dataStep b h
  | trailer => exact hR.trailerStep b h

theorem StepCongruence.fetch (hR : StepCongruence R) (h : R s t) : FetchRelated R (fetch s) (fetch t) := by
  have hc := hR.control h
  simp only [Machine.fetch, hc.top, hc.nextByte]
  cases s.top with
  | sync =>
    cases s.nextByte with
    | none => exact hR.endOfStream h
    | some b => exact hR.fetchSync h b
  | run =>
    cases s.nextByte with
    | none => exact hR.endOfStream h
    | some b => exact hR.fetchRun h b
  | _ => exact h

theorem StepCongruence.step (hR : StepCongruence R) (h : R s t) : Related R (step s) (step t) := by
  have hf := hR.fetch h
  unfold Machine.step
  cases hs : Machine.fetch s <;> cases ht : Machine.fetch t <;> rw [hs, ht] at hf
  case instr.instr i j => exact (show i = j from hf) ▸ hR.exec i h
  case other.other => exact hf
  all_goals exact hf.elim

/-- By induction on the number of steps: runs that stop, stop together. -/
theorem StepCongruence.runSteps (hR : StepCongruence R) (n : Nat) (h : R s t) :
    Related R (s.runSteps n) (t.runSteps n) := by
  induction n generalizing s t with
  | zero => exact h
  | succ n ih =>
    have hst := hR.step h
    cases hs : Machine.step s <;> cases ht : Machine.step t <;> rw [hs, ht] at hst
    case next.next =>
      rw [State.runSteps_succ n hs, State.runSteps_succ n ht]
      exact ih hst
    case fault.fault =>
      rw [State.runSteps_fault n hs, State.runSteps_fault n ht]
      exact hst
    case refused.refused =>
      rw [State.runSteps_refused n hs, State.runSteps_refused n ht]
      exact hst
    all_goals exact hst.elim

theorem related_mono {Q : State → State → Prop} (hRQ : ∀ s t, R s t → Q s t)
    {x y : Host.Outcome State Fault Refusal} (h : Related R x y) : Related Q x y := by
  cases x <;> cases y
  case next.next s t => exact hRQ s t h
  all_goals exact h

/-- BlockStart reads the geometry and nothing else of its outcome. -/
theorem blockStart_related (hb : t.bank = s.bank) (hw : t.width = s.width) (hh : t.height = s.height)
    (ho : t.offset = s.offset) (st : StoreId) (len : Nibble) (p : Nat)
    (hfault : R (s.modelFault .geometryUnset) (t.modelFault .geometryUnset))
    (hraise : R (s.raiseDispatch .malformedBlockSize 0 p) (t.raiseDispatch .malformedBlockSize 0 p))
    (hopen : ∀ bank w h off,
      R ((s.endFraming 0 len p).openBlock st bank w h off) ((t.endFraming 0 len p).openBlock st bank w h off)) :
    R (blockStart st len p s) (blockStart st len p t) := by
  simp only [blockStart, hb, hw, hh, ho]
  split
  · split
    · exact hraise
    · exact hopen _ _ _ _
  · exact hfault

end

/-! ### The stores (20_memory.md R53) -/

/-- Without STORE_LIMIT, agreement in all but the stores. -/
def UnlimitedButStores (s t : State) : Prop := s.storeLimit = none ∧ AgreeButStores s t

section
variable {s t : State}

theorem UnlimitedButStores.blockStart (h : UnlimitedButStores s t) (st : StoreId) (len : Nibble) (p : Nat) :
    UnlimitedButStores (blockStart st len p s) (blockStart st len p t) := by
  obtain ⟨hlim, hst⟩ := h
  refine blockStart_related ?_ ?_ ?_ ?_ st len p ?_ ?_ (fun bank w h off => ?_) <;> rw [hst]
  · exact ⟨hlim, rfl⟩
  · exact ⟨hlim, rfl⟩
  · exact ⟨by simpa using hlim, by cases st <;> rfl⟩

theorem UnlimitedButStores.exec (h : UnlimitedButStores s t) (i : Instr) :
    Related UnlimitedButStores (exec i s) (exec i t) := by
  have hblock := h.blockStart
  obtain ⟨hlim, hst⟩ := h
  cases i with
  | cram len => exact hblock .cram len 1
  | bram len => exact hblock .bram len 3
  | flags len p =>
    rw [hst]
    simp only [Machine.exec, execFlags]
    cases featureFlags p <;> exact ⟨hlim, rfl⟩
  | _ => rw [hst]; exact ⟨hlim, rfl⟩

/-- Without STORE_LIMIT a due data byte lands in both states, whatever their stores hold. -/
theorem UnlimitedButStores.dataStep (h : UnlimitedButStores s t) (b : Byte) :
    Related UnlimitedButStores (dataStep b s) (dataStep b t) := by
  obtain ⟨hlim, hst⟩ := h
  obtain ⟨hbytes, hdone, hw, hlimt⟩ : t.blkBytes = s.blkBytes ∧ t.blkDone = s.blkDone ∧ t.blkW = s.blkW ∧
      t.storeLimit = none := by rw [hst]; exact ⟨rfl, rfl, rfl, hlim⟩
  by_cases hd : s.blkDone < s.blkBytes ∧ 0 < s.blkW
  · obtain ⟨u, hu⟩ := s.memWriteAll_unlimited s.blkStore (s.dataWrites b) hlim
    obtain ⟨v, hv⟩ := t.memWriteAll_unlimited t.blkStore (t.dataWrites b) hlimt
    rw [dataStep_of_written hd hu, dataStep_of_written (by rwa [hbytes, hdone, hw]) hv]
    obtain ⟨c, d, rfl⟩ := State.memWriteAll_eq hu
    obtain ⟨c', d', rfl⟩ := State.memWriteAll_eq hv
    rw [hst]
    exact ⟨hlim, rfl⟩
  · rw [dataStep_of_not_due hd, dataStep_of_not_due (by rwa [hbytes, hdone, hw])]
    exact rfl

end

theorem stepCongruence_unlimitedButStores : StepCongruence UnlimitedButStores where
  control := by rintro s t ⟨-, hst⟩; rw [hst]; exact ⟨rfl, rfl, rfl, rfl, rfl, rfl, rfl, rfl, rfl⟩
  exec i _ _ h := h.exec i
  raise e c op p n := by rintro s t ⟨hlim, hst⟩; rw [hst]; exact ⟨hlim, rfl⟩
  shiftSync b := by rintro s t ⟨hlim, hst⟩; rw [hst]; exact ⟨hlim, rfl⟩
  openCommand b := by rintro s t ⟨hlim, hst⟩; rw [hst]; exact ⟨hlim, rfl⟩
  shiftPayload b := by rintro s t ⟨hlim, hst⟩; rw [hst]; exact ⟨hlim, rfl⟩
  dataStep b _ _ h := h.dataStep b
  trailerStep b := by
    rintro s t ⟨hlim, hst⟩
    rw [hst]
    by_cases h0 : s.trlDone = 0
    · simp only [trailerStep, if_pos h0]; exact ⟨hlim, rfl⟩
    · simp only [trailerStep, if_neg h0]; exact ⟨hlim, rfl⟩

/-- Settles O49: agreement in all but the stores is kept by every step without STORE_LIMIT, which no step writes. -/
theorem storesNeverInfluenceTheDecode : Obligations.StoresNeverInfluenceTheDecode := fun _ _ n hlim h =>
  related_mono (fun _ _ => And.right) (stepCongruence_unlimitedButStores.runSteps n ⟨hlim, h⟩)

/-! ### The output registers -/

section
variable {s t : State}

theorem blockStart_butOutputs (h : AgreeButOutputs s t) (st : StoreId) (len : Nibble) (p : Nat) :
    AgreeButOutputs (blockStart st len p s) (blockStart st len p t) := by
  refine blockStart_related ?_ ?_ ?_ ?_ st len p ?_ ?_ (fun bank w height off => ?_) <;> rw [h]
  · exact rfl
  · exact rfl
  · cases st <;> rfl

theorem exec_butOutputs (h : AgreeButOutputs s t) (i : Instr) : Related AgreeButOutputs (exec i s) (exec i t) := by
  cases i with
  | cram len => exact blockStart_butOutputs h .cram len 1
  | bram len => exact blockStart_butOutputs h .bram len 3
  | flags len p =>
    rw [h]
    simp only [exec, execFlags]
    cases featureFlags p <;> exact rfl
  | _ => rw [h]; exact rfl

/-- MemWrite reads the stores and STORE_LIMIT alone. -/
theorem memWrite_butOutputs (h : AgreeButOutputs s t) (st : StoreId) (a : CellAddr) (bit : Bit) :
    Option.Rel AgreeButOutputs (s.memWrite st a bit) (t.memWrite st a bit) := by
  have hread : t.memRead st a = s.memRead st a := by rw [h]; cases st <;> rfl
  have hlim : t.storeLimit = s.storeLimit := by rw [h]
  have hcount : t.cellCount = s.cellCount := by rw [h]; rfl
  simp only [State.memWrite, hread, hlim, hcount]
  split
  · exact .none
  · refine .some ?_
    rw [h]
    cases st <;> rfl

theorem memWriteAll_butOutputs (h : AgreeButOutputs s t) (st : StoreId) (ws : List (CellAddr × Bit)) :
    Option.Rel AgreeButOutputs (s.memWriteAll st ws) (t.memWriteAll st ws) := by
  induction ws generalizing s t with
  | nil => exact .some h
  | cons w rest ih =>
    obtain ⟨a, bit⟩ := w
    have hw := memWrite_butOutputs h st a bit
    simp only [State.memWriteAll]
    cases hs : s.memWrite st a bit <;> cases ht : t.memWrite st a bit <;> rw [hs, ht] at hw <;> cases hw
    case none.none => exact .none
    case some.some hw => exact ih hw

theorem dataStep_butOutputs (h : AgreeButOutputs s t) (b : Byte) :
    Related AgreeButOutputs (dataStep b s) (dataStep b t) := by
  obtain ⟨hbytes, hdone, hw⟩ : t.blkBytes = s.blkBytes ∧ t.blkDone = s.blkDone ∧ t.blkW = s.blkW := by
    rw [h]; exact ⟨rfl, rfl, rfl⟩
  have hwrites : Option.Rel AgreeButOutputs (s.memWriteAll s.blkStore (s.dataWrites b))
      (t.memWriteAll t.blkStore (t.dataWrites b)) := by
    have hcells : t.blkStore = s.blkStore ∧ t.dataWrites b = s.dataWrites b := by rw [h]; exact ⟨rfl, rfl⟩
    rw [hcells.1, hcells.2]
    exact memWriteAll_butOutputs h _ _
  by_cases hd : s.blkDone < s.blkBytes ∧ 0 < s.blkW
  · have hdt : t.blkDone < t.blkBytes ∧ 0 < t.blkW := by rwa [hbytes, hdone, hw]
    cases hu : s.memWriteAll s.blkStore (s.dataWrites b) <;>
      cases hv : t.memWriteAll t.blkStore (t.dataWrites b) <;> rw [hu, hv] at hwrites <;> cases hwrites
    case none.none =>
      rw [dataStep_of_limit hd hu, dataStep_of_limit hdt hv, h]
      exact rfl
    case some.some huv =>
      rw [dataStep_of_written hd hu, dataStep_of_written hdt hv, huv, h]
      exact rfl
  · rw [dataStep_of_not_due hd, dataStep_of_not_due (by rwa [hbytes, hdone, hw])]
    exact rfl

end

theorem stepCongruence_agreeButOutputs : StepCongruence AgreeButOutputs where
  control h := by rw [h]; exact ⟨rfl, rfl, rfl, rfl, rfl, rfl, rfl, rfl, rfl⟩
  exec i _ _ h := exec_butOutputs h i
  raise e c op p n _ _ h := by rw [h]; exact rfl
  shiftSync b _ _ h := by rw [h]; exact rfl
  openCommand b _ _ h := by rw [h]; exact rfl
  shiftPayload b _ _ h := by rw [h]; exact rfl
  dataStep b _ _ h := dataStep_butOutputs h b
  trailerStep b s t h := by
    rw [h]
    by_cases h0 : s.trlDone = 0
    · simp only [trailerStep, if_pos h0]; exact rfl
    · simp only [trailerStep, if_neg h0]; exact rfl

/-- Settles O50: agreement in all but the output registers is kept by every step. -/
theorem outputRegistersNeverInfluenceTheDecode : Obligations.OutputRegistersNeverInfluenceTheDecode := fun _ _ n h =>
  stepCongruence_agreeButOutputs.runSteps n h

end Sys2Proof.Machine
